-- ==== Sys2Proof/Word.lean ====
section
/-! DEFINITION. The word types of the machine: 8-bit bytes, 16-bit words, and the field widths of an
instruction word (spec/00_scope.md R7, R9; spec/30_encoding.md R71). -/

namespace Sys2Proof

/-- An 8-bit register or memory byte (R20, R50). -/
abbrev Byte := BitVec 8

/-- A 16-bit value: I, pc, a return address, an instruction word (R22, R23, R25, R70). -/
abbrev Word := BitVec 16

/-- A 4-bit register index `x` or `y` (R20, R71): no instruction can name a register outside 0..15. -/
abbrev Reg := BitVec 4

/-- A 4-bit field that is not a register: the count `n`, a sub-opcode nibble, a logical key (R71, R32). -/
abbrev Nibble := BitVec 4

/-- The 12-bit field `nnn` (R71). -/
abbrev Addr12 := BitVec 12

/-- The register VF = V[15], which doubles as the flag register (R21). -/
abbrev VF : Reg := 15#4

end Sys2Proof
end

