-- ==== Sys2Proof/Syntax.lean ====
section
/-! DEFINITION. The instruction set: one constructor per row of spec/opcode_table.json
(spec/30_encoding.md R74, R75). A residual row keeps the bits the row leaves free, so that no bit of a
word is lost by decoding (DESIGN CHOICE, safe: log entry 16). -/

namespace Sys2Proof

inductive Instr where
  /-- HALT `0000` (R231) -/
  | halt
  /-- CLS `00E0` (R191) -/
  | cls
  /-- RET `00EE` (R120) -/
  | ret
  /-- SYS `0NNN`, nnn other than 0x000, 0x0E0, 0x0EE (R230) -/
  | sys (nnn : Addr12)
  /-- JP `1NNN` (R121) -/
  | jp (nnn : Addr12)
  /-- CALL `2NNN` (R122) -/
  | call (nnn : Addr12)
  /-- SE_IMM `3XNN` (R123) -/
  | seImm (x : Reg) (nn : Byte)
  /-- SNE_IMM `4XNN` (R124) -/
  | sneImm (x : Reg) (nn : Byte)
  /-- SE_REG `5XY0` (R125) -/
  | seReg (x y : Reg)
  /-- NOP_5 `5XYn`, n ≠ 0 (R232) -/
  | nop5 (x y : Reg) (n : Nibble)
  /-- LD_IMM `6XNN` (R142) -/
  | ldImm (x : Reg) (nn : Byte)
  /-- ADD_IMM `7XNN` (R143) -/
  | addImm (x : Reg) (nn : Byte)
  /-- LD_REG `8XY0` (R144) -/
  | ldReg (x y : Reg)
  /-- OR `8XY1` (R145) -/
  | or (x y : Reg)
  /-- AND `8XY2` (R146) -/
  | and (x y : Reg)
  /-- XOR `8XY3` (R147) -/
  | xor (x y : Reg)
  /-- ADD_REG `8XY4` (R148) -/
  | addReg (x y : Reg)
  /-- SUB `8XY5` (R149) -/
  | sub (x y : Reg)
  /-- SHR `8XY6` (R151) -/
  | shr (x y : Reg)
  /-- SUBN `8XY7` (R150) -/
  | subn (x y : Reg)
  /-- SHL `8XYE` (R152) -/
  | shl (x y : Reg)
  /-- NOP_8 `8XYn`, n in 8, 9, A, B, C, D, F (R233) -/
  | nop8 (x y : Reg) (n : Nibble)
  /-- SNE_REG `9XY0` (R126) -/
  | sneReg (x y : Reg)
  /-- NOP_9 `9XYn`, n ≠ 0 (R234) -/
  | nop9 (x y : Reg) (n : Nibble)
  /-- LD_INDEX `ANNN` (R170) -/
  | ldIndex (nnn : Addr12)
  /-- JP_OFFSET `BNNN`; its `x` is nnn[11:8] (R127, R73) -/
  | jpOffset (nnn : Addr12)
  /-- RND `CXNN` (R153) -/
  | rnd (x : Reg) (nn : Byte)
  /-- DRW `DXYN` (R192) -/
  | drw (x y : Reg) (n : Nibble)
  /-- SKP `EX9E` (R210) -/
  | skp (x : Reg)
  /-- SKNP `EXA1` (R211) -/
  | sknp (x : Reg)
  /-- NOP_E `EXnn`, any other nn (R235) -/
  | nopE (x : Reg) (nn : Byte)
  /-- LD_VX_DT `FX07` (R212) -/
  | ldVxDt (x : Reg)
  /-- LD_VX_K `FX0A` (R215) -/
  | ldVxK (x : Reg)
  /-- LD_DT_VX `FX15` (R213) -/
  | ldDtVx (x : Reg)
  /-- LD_ST_VX `FX18` (R214) -/
  | ldStVx (x : Reg)
  /-- ADD_INDEX `FX1E` (R171) -/
  | addIndex (x : Reg)
  /-- LD_FONT `FX29` (R172) -/
  | ldFont (x : Reg)
  /-- LD_BCD `FX33` (R173) -/
  | ldBcd (x : Reg)
  /-- STORE_REGS `FX55` (R174) -/
  | storeRegs (x : Reg)
  /-- LOAD_REGS `FX65` (R175) -/
  | loadRegs (x : Reg)
  /-- NOP_F `FXnn`, any other nn (R236) -/
  | nopF (x : Reg) (nn : Byte)
  deriving DecidableEq, Repr

end Sys2Proof
end

