-- ==== Sys2Proof/WellFormed.lean ====
section
/-! DEFINITION. Which terms of `Instr` stand for an instruction word: a residual row must not hold the bits
of a row that wins over it (spec/30_encoding.md R74 "excludes"). -/

namespace Sys2Proof

/-- The check of one instruction: every operand of a named row is free, and a residual row's free bits
avoid every row it excludes (R74, R75). -/
def Instr.wf : Instr → Bool
  | .sys nnn => nnn != 0x000 && nnn != 0x0E0 && nnn != 0x0EE
  | .nop5 _ _ n => n != 0
  | .nop8 _ _ n => n == 0x8 || n == 0x9 || n == 0xA || n == 0xB || n == 0xC || n == 0xD || n == 0xF
  | .nop9 _ _ n => n != 0
  | .nopE _ nn => nn != 0x9E && nn != 0xA1
  | .nopF _ nn => nn != 0x07 && nn != 0x0A && nn != 0x15 && nn != 0x18 && nn != 0x1E && nn != 0x29
      && nn != 0x33 && nn != 0x55 && nn != 0x65
  | .halt | .cls | .ret | .jp _ | .call _ | .seImm _ _ | .sneImm _ _ | .seReg _ _ | .ldImm _ _
  | .addImm _ _ | .ldReg _ _ | .or _ _ | .and _ _ | .xor _ _ | .addReg _ _ | .sub _ _ | .shr _ _
  | .subn _ _ | .shl _ _ | .sneReg _ _ | .ldIndex _ | .jpOffset _ | .rnd _ _ | .drw _ _ _ | .skp _
  | .sknp _ | .ldVxDt _ | .ldVxK _ | .ldDtVx _ | .ldStVx _ | .addIndex _ | .ldFont _ | .ldBcd _
  | .storeRegs _ | .loadRegs _ => true

end Sys2Proof
end

