-- ==== Sys2Proof/Decode.lean ====
section
/-! DEFINITION. The decoder (spec/30_encoding.md R75), total on words and on any bytes, the encoder written
from the encodings of spec/opcode_table.json, and each row's match and mask. -/

namespace Sys2Proof

/-! ### Fields of an instruction word (R71) -/

/-- `family = w[15:12]` -/
def Word.family (w : Word) : Nibble := w.extractLsb' 12 4

/-- `x = w[11:8]` -/
def Word.fieldX (w : Word) : Reg := w.extractLsb' 8 4

/-- `y = w[7:4]` -/
def Word.fieldY (w : Word) : Reg := w.extractLsb' 4 4

/-- `n = w[3:0]` -/
def Word.fieldN (w : Word) : Nibble := w.extractLsb' 0 4

/-- `nn = w[7:0]` -/
def Word.fieldNN (w : Word) : Byte := w.extractLsb' 0 8

/-- `nnn = w[11:0]` -/
def Word.fieldNNN (w : Word) : Addr12 := w.extractLsb' 0 12

/-- The word whose bytes are `hi` and `lo` in the order they stand in memory: `hi << 8 | lo`, big-endian
(R55, R70). -/
def Word.ofBytes (hi lo : Byte) : Word := hi ++ lo

/-- The byte of a word at the lower address (R55). -/
def Word.hiByte (w : Word) : Byte := w.extractLsb' 8 8

/-- The byte of a word at the higher address (R55). -/
def Word.loByte (w : Word) : Byte := w.extractLsb' 0 8

/-! ### The decoder (R75) -/

/-- Family 0: the three exact words win over SYS (R75; 90_conflicts.md C3). -/
def decode0 (nnn : Addr12) : Instr :=
  if nnn = 0x000 then .halt
  else if nnn = 0x0E0 then .cls
  else if nnn = 0x0EE then .ret
  else .sys nnn

/-- Family 5: only n = 0 is SE_REG. -/
def decode5 (x y : Reg) (n : Nibble) : Instr :=
  if n = 0x0 then .seReg x y else .nop5 x y n

/-- Family 8, by the sub-opcode n. -/
def decode8 (x y : Reg) (n : Nibble) : Instr :=
  if n = 0x0 then .ldReg x y
  else if n = 0x1 then .or x y
  else if n = 0x2 then .and x y
  else if n = 0x3 then .xor x y
  else if n = 0x4 then .addReg x y
  else if n = 0x5 then .sub x y
  else if n = 0x6 then .shr x y
  else if n = 0x7 then .subn x y
  else if n = 0xE then .shl x y
  else .nop8 x y n

/-- Family 9: only n = 0 is SNE_REG. -/
def decode9 (x y : Reg) (n : Nibble) : Instr :=
  if n = 0x0 then .sneReg x y else .nop9 x y n

/-- Family E, by the sub-opcode nn. -/
def decodeE (x : Reg) (nn : Byte) : Instr :=
  if nn = 0x9E then .skp x
  else if nn = 0xA1 then .sknp x
  else .nopE x nn

/-- Family F, by the sub-opcode nn. -/
def decodeF (x : Reg) (nn : Byte) : Instr :=
  if nn = 0x07 then .ldVxDt x
  else if nn = 0x0A then .ldVxK x
  else if nn = 0x15 then .ldDtVx x
  else if nn = 0x18 then .ldStVx x
  else if nn = 0x1E then .addIndex x
  else if nn = 0x29 then .ldFont x
  else if nn = 0x33 then .ldBcd x
  else if nn = 0x55 then .storeRegs x
  else if nn = 0x65 then .loadRegs x
  else .nopF x nn

/-- Decoding of one word: total, of the word alone (R72, R75). The last arm is family 0xF, the only value
of a 4-bit field that no other arm names. -/
def decodeWord (w : Word) : Instr :=
  match w.family.toNat with
  | 0x0 => decode0 w.fieldNNN
  | 0x1 => .jp w.fieldNNN
  | 0x2 => .call w.fieldNNN
  | 0x3 => .seImm w.fieldX w.fieldNN
  | 0x4 => .sneImm w.fieldX w.fieldNN
  | 0x5 => decode5 w.fieldX w.fieldY w.fieldN
  | 0x6 => .ldImm w.fieldX w.fieldNN
  | 0x7 => .addImm w.fieldX w.fieldNN
  | 0x8 => decode8 w.fieldX w.fieldY w.fieldN
  | 0x9 => decode9 w.fieldX w.fieldY w.fieldN
  | 0xA => .ldIndex w.fieldNNN
  | 0xB => .jpOffset w.fieldNNN
  | 0xC => .rnd w.fieldX w.fieldNN
  | 0xD => .drw w.fieldX w.fieldY w.fieldN
  | 0xE => decodeE w.fieldX w.fieldNN
  | _ => decodeF w.fieldX w.fieldNN

/-- Why a byte list is no instruction. Every 16-bit word decodes (R72), so too few bytes is the only reason. -/
inductive DecodeError where
  /-- Fewer than the two bytes of an instruction (R70). -/
  | tooFewBytes
  deriving DecidableEq, Repr

/-- Decode the first instruction of a byte list, and give the rest (R55, R70). -/
def decode : List Byte → Except DecodeError (Instr × List Byte)
  | hi :: lo :: rest => .ok (decodeWord (Word.ofBytes hi lo), rest)
  | _ => .error .tooFewBytes

/-! ### The encoder (spec/opcode_table.json "encoding") -/

/-- Formats XY and XYN: `ffff xxxx yyyy nnnn` (R73). -/
def wordXYN (f : Nibble) (x y : Reg) (n : Nibble) : Word := f ++ x ++ y ++ n

/-- Formats XNN and X: `ffff xxxx kkkkkkkk` (R73). -/
def wordXNN (f : Nibble) (x : Reg) (nn : Byte) : Word := f ++ x ++ nn

/-- Formats Z and A: `ffff aaaaaaaaaaaa` (R73). -/
def wordNNN (f : Nibble) (nnn : Addr12) : Word := f ++ nnn

/-- The word of an instruction, from its row's encoding. -/
def encode : Instr → Word
  | .halt => 0x0000
  | .cls => 0x00E0
  | .ret => 0x00EE
  | .sys nnn => wordNNN 0x0 nnn
  | .jp nnn => wordNNN 0x1 nnn
  | .call nnn => wordNNN 0x2 nnn
  | .seImm x nn => wordXNN 0x3 x nn
  | .sneImm x nn => wordXNN 0x4 x nn
  | .seReg x y => wordXYN 0x5 x y 0x0
  | .nop5 x y n => wordXYN 0x5 x y n
  | .ldImm x nn => wordXNN 0x6 x nn
  | .addImm x nn => wordXNN 0x7 x nn
  | .ldReg x y => wordXYN 0x8 x y 0x0
  | .or x y => wordXYN 0x8 x y 0x1
  | .and x y => wordXYN 0x8 x y 0x2
  | .xor x y => wordXYN 0x8 x y 0x3
  | .addReg x y => wordXYN 0x8 x y 0x4
  | .sub x y => wordXYN 0x8 x y 0x5
  | .shr x y => wordXYN 0x8 x y 0x6
  | .subn x y => wordXYN 0x8 x y 0x7
  | .shl x y => wordXYN 0x8 x y 0xE
  | .nop8 x y n => wordXYN 0x8 x y n
  | .sneReg x y => wordXYN 0x9 x y 0x0
  | .nop9 x y n => wordXYN 0x9 x y n
  | .ldIndex nnn => wordNNN 0xA nnn
  | .jpOffset nnn => wordNNN 0xB nnn
  | .rnd x nn => wordXNN 0xC x nn
  | .drw x y n => wordXYN 0xD x y n
  | .skp x => wordXNN 0xE x 0x9E
  | .sknp x => wordXNN 0xE x 0xA1
  | .nopE x nn => wordXNN 0xE x nn
  | .ldVxDt x => wordXNN 0xF x 0x07
  | .ldVxK x => wordXNN 0xF x 0x0A
  | .ldDtVx x => wordXNN 0xF x 0x15
  | .ldStVx x => wordXNN 0xF x 0x18
  | .addIndex x => wordXNN 0xF x 0x1E
  | .ldFont x => wordXNN 0xF x 0x29
  | .ldBcd x => wordXNN 0xF x 0x33
  | .storeRegs x => wordXNN 0xF x 0x55
  | .loadRegs x => wordXNN 0xF x 0x65
  | .nopF x nn => wordXNN 0xF x nn

/-- The two bytes of an instruction as they stand in memory, high byte first (R55). -/
def encodeBytes (i : Instr) : List Byte := [(encode i).hiByte, (encode i).loByte]

/-! ### The table's match and mask -/

/-- `mask` of an instruction's row of spec/opcode_table.json: 0xFFFF for a fixed word, 0xF00F where the low
nibble is fixed, 0xF0FF where the low byte is fixed, 0xF000 elsewhere (the residual rows among them). -/
def rowMask : Instr → Word
  | .halt | .cls | .ret => 0xFFFF
  | .seReg _ _ | .ldReg _ _ | .or _ _ | .and _ _ | .xor _ _ | .addReg _ _ | .sub _ _ | .shr _ _
  | .subn _ _ | .shl _ _ | .sneReg _ _ => 0xF00F
  | .skp _ | .sknp _ | .ldVxDt _ | .ldVxK _ | .ldDtVx _ | .ldStVx _ | .addIndex _ | .ldFont _
  | .ldBcd _ | .storeRegs _ | .loadRegs _ => 0xF0FF
  | .sys _ | .jp _ | .call _ | .seImm _ _ | .sneImm _ _ | .nop5 _ _ _ | .ldImm _ _ | .addImm _ _
  | .nop8 _ _ _ | .nop9 _ _ _ | .ldIndex _ | .jpOffset _ | .rnd _ _ | .drw _ _ _ | .nopE _ _
  | .nopF _ _ => 0xF000

/-- `match` of an instruction's row of spec/opcode_table.json. -/
def rowMatch : Instr → Word
  | .halt => 0x0000
  | .cls => 0x00E0
  | .ret => 0x00EE
  | .sys _ => 0x0000
  | .jp _ => 0x1000
  | .call _ => 0x2000
  | .seImm _ _ => 0x3000
  | .sneImm _ _ => 0x4000
  | .seReg _ _ => 0x5000
  | .nop5 _ _ _ => 0x5000
  | .ldImm _ _ => 0x6000
  | .addImm _ _ => 0x7000
  | .ldReg _ _ => 0x8000
  | .or _ _ => 0x8001
  | .and _ _ => 0x8002
  | .xor _ _ => 0x8003
  | .addReg _ _ => 0x8004
  | .sub _ _ => 0x8005
  | .shr _ _ => 0x8006
  | .subn _ _ => 0x8007
  | .shl _ _ => 0x800E
  | .nop8 _ _ _ => 0x8000
  | .sneReg _ _ => 0x9000
  | .nop9 _ _ _ => 0x9000
  | .ldIndex _ => 0xA000
  | .jpOffset _ => 0xB000
  | .rnd _ _ => 0xC000
  | .drw _ _ _ => 0xD000
  | .skp _ => 0xE09E
  | .sknp _ => 0xE0A1
  | .nopE _ _ => 0xE000
  | .ldVxDt _ => 0xF007
  | .ldVxK _ => 0xF00A
  | .ldDtVx _ => 0xF015
  | .ldStVx _ => 0xF018
  | .addIndex _ => 0xF01E
  | .ldFont _ => 0xF029
  | .ldBcd _ => 0xF033
  | .storeRegs _ => 0xF055
  | .loadRegs _ => 0xF065
  | .nopF _ _ => 0xF000

/-! ### The opcode table's numbering -/

/-- The word of an instruction given as a number whose bit 0 is the word's least significant bit, with the
bits above `nbits` zero. -/
def tableWord (nbits w : Nat) : Word := BitVec.ofNat 16 (w % 2 ^ nbits)

/-- The instruction the decoder reads from the bytes of a table word laid out as the hardware stores them,
the high byte at the lower address (R55). -/
def decodeTableWord (nbits w : Nat) : Option Instr :=
  match decode [(tableWord nbits w).hiByte, (tableWord nbits w).loByte] with
  | .ok (i, _) => some i
  | .error _ => none

end Sys2Proof
end

