-- ==== Sys2Proof/Config.lean ====
section
/-! DEFINITION. The configuration record `cfg` (spec/00_scope.md R6), the reference configuration of
decision D23, and the one free value of the model, the host's random byte (spec/40_cycle.md R103). -/

namespace Sys2Proof

/-- `stack_depth`: 16 or 32 entries by configuration (R6, R24). -/
inductive StackDepth where
  | d16
  | d32
  deriving DecidableEq, Repr

/-- The number of slots a `StackDepth` stands for. -/
abbrev StackDepth.slots : StackDepth → Nat
  | .d16 => 16
  | .d32 => 32

/-- `stack_error_mode`: what a stack overflow or underflow does (R6, R256, R257). -/
inductive StackErrorMode where
  | fatal
  | ignore
  deriving DecidableEq, Repr

/-- The configuration record `cfg` (R6), fixed for a run and read-only to programs (R33). -/
structure Config where
  /-- 8XY6/8XYE shift a copy of V[y] (true) or V[x] in place (false). -/
  shiftLegacy : Bool
  /-- 8XY1/8XY2/8XY3 also write VF <- 0. -/
  resetFlagOnLogicOps : Bool
  /-- FX55/FX65 add x+1 to I. -/
  incrementIndexOnLoadStore : Bool
  /-- BNNN adds V[x] (true) or V[0] (false). -/
  jumpUsesVx : Bool
  /-- DXYN clips at the screen edge (true) or wraps each pixel (false). -/
  clipSprites : Bool
  /-- FX1E writes VF <- 1 when the new I exceeds 0xFFF. -/
  indexOverflowSetsVf : Bool
  /-- Capacity of the call stack. -/
  stackDepth : StackDepth
  /-- What a stack error does. -/
  stackErrorMode : StackErrorMode
  /-- The 80 glyph bytes seeded at 0x000..0x04F. -/
  font : Vector Byte 80
  deriving DecidableEq, Repr

/-- The standard CHIP-8 font that the spec suggests for `cfg.font` (93_implementation_defined.md G3, from
general knowledge, not in source). PRESUMED: log entry 4. No statement rests on it. -/
def Config.standardFont : Vector Byte 80 :=
  (#v[0xF0, 0x90, 0x90, 0x90, 0xF0, 0x20, 0x60, 0x20, 0x20, 0x70, 0xF0, 0x10, 0xF0, 0x80, 0xF0,
      0xF0, 0x10, 0xF0, 0x10, 0xF0, 0x90, 0x90, 0xF0, 0x10, 0x10, 0xF0, 0x80, 0xF0, 0x10, 0xF0,
      0xF0, 0x80, 0xF0, 0x90, 0xF0, 0xF0, 0x10, 0x20, 0x40, 0x40] : Vector Byte 40) ++
  (#v[0xF0, 0x90, 0xF0, 0x90, 0xF0, 0xF0, 0x90, 0xF0, 0x10, 0xF0, 0xF0, 0x90, 0xF0, 0x90, 0x90,
      0xE0, 0x90, 0xE0, 0x90, 0xE0, 0xF0, 0x80, 0x80, 0x80, 0xF0, 0xE0, 0x90, 0x90, 0x90, 0xE0,
      0xF0, 0x80, 0xF0, 0x80, 0xF0, 0xF0, 0x80, 0xF0, 0x80, 0x80] : Vector Byte 40)

/-- The reference configuration of decision D23. The spec gives `cfg` no built-in default; the state after
reset needs one. DESIGN CHOICE: log entry 3. -/
def Config.reference : Config where
  shiftLegacy := false
  resetFlagOnLogicOps := false
  incrementIndexOnLoadStore := false
  jumpUsesVx := false
  clipSprites := true
  indexOverflowSetsVf := true
  stackDepth := .d16
  stackErrorMode := .fatal
  font := Config.standardFont

/-- FREE VALUE. The byte `rand8` that the host supplies with the k-th Step that no scheduled event supplies
(R103, decision D25: "a free input under no law"). It has no body: nothing can be proved about its value.
DESIGN CHOICE of form, safe: log entry 5. -/
opaque Config.rand8 : Nat → Byte

end Sys2Proof
end

