-- ==== Sys2Proof/Machine/State.lean ====
section
/-! DEFINITION. The state of the machine (spec/10_state.md), the host's events (spec/40_cycle.md R100), the
error kinds (spec/60_exceptions.md R250), and the state after reset (10_state.md R36). -/

namespace Sys2Proof.Machine

/-- The spec's error kinds (R250). They are no stops of the model: a raised error gives a next state. -/
inductive FaultKind where
  /-- CALL with every stack slot occupied (R251). -/
  | stackOverflow
  /-- RET with an empty stack (R252). -/
  | stackUnderflow
  /-- A memory access or a fetch above 0xFFF (R253). -/
  | addressFault
  /-- SKP or SKNP with V[x] > 15 (R254). -/
  | keyIndexFault
  /-- The host's loader could not produce the program bytes: no core exists then (R255). -/
  | loadError
  deriving DecidableEq, Repr

/-- The fault record `fault = {kind, pc, info}` (R31, R256). `info` is a natural number: an address of an
access is computed without reduction (R52). -/
structure FaultRecord where
  kind : FaultKind
  pc   : Word
  info : Nat
  deriving DecidableEq, Repr

/-- `status` (R30). -/
inductive Status where
  | run
  | halt
  | fault
  deriving DecidableEq, Repr

/-- An event the host issues, one at a time, in an order it chooses (R100, R114). -/
inductive Event where
  /-- Step, which carries the random byte (R101, R102, R103). -/
  | step (rand8 : Byte)
  /-- DelayTick (R105). -/
  | delayTick
  /-- SoundTick (R106). -/
  | soundTick
  /-- KeyPress(k), 0 ≤ k ≤ 15 (R107). -/
  | keyPress (k : Nibble)
  /-- SetKeys(m) (R108). -/
  | setKeys (m : BitVec 16)
  /-- RedrawAck (R109). -/
  | redrawAck
  deriving DecidableEq, Repr

/-- Memory as data: the cells that differ from the reset content, addresses strictly rising (R50). -/
abbrev Memory := List Host.Cell

/-- The framebuffer `fb[px][py]`: 64 columns of 32 pixels (R27). -/
abbrev Framebuffer := Vector (Vector Bool 32) 64

/-- The pixel at column px and row py, in range by its type (R190: the engine never receives other
coordinates). -/
abbrev Pixel := Fin 64 × Fin 32

/-- The reasons for which the model stops. THERE IS NONE: every error the spec describes is an entry into
`status = FAULT` or an ignored error, a next state (R256, R257), and no access of this hardware is left
without an effect. Nobody raises it; safe (log entry 15). -/
inductive Fault
  deriving DecidableEq, Repr

/-- The reasons for which the model refuses an instruction. -/
inductive Refusal where
  /-- Raised by `exec` for an instruction that has no meaning yet; safe. No arm raises it: every row of the
  opcode table has its meaning. -/
  | notModelled (mnemonic : String)
  deriving DecidableEq, Repr

/-- The whole state: the spec's State record (10_state.md), the inputs and the output the step reads or
writes (R32, R33, R103, R112), and two fields of the model's own (`draws`, `events`; log entries 1 and 5). -/
structure State where
  /-- The configuration record, fixed for a run (R6, R33). -/
  cfg : Config
  /-- `M` (R50). -/
  mem : Memory
  /-- `V[0..15]` (R20). -/
  regs : Vector Byte 16
  /-- The index register (R22). -/
  I : Word
  /-- The program counter (R23). -/
  pc : Word
  /-- The call stack's slots; the core has the first `cfg.stackDepth.slots` of them (R24, R25). -/
  stack : Vector Word 32
  /-- The number of occupied slots (R24). -/
  sp : Nat
  /-- The delay timer (R26). -/
  DT : Byte
  /-- The sound timer (R26). -/
  ST : Byte
  /-- The framebuffer (R27). -/
  fb : Framebuffer
  /-- The redraw-needed signal (R28). -/
  redraw : Bool
  /-- `key_wait` (R29). -/
  keyWait : Bool
  /-- `key_wait_reg` (R29). -/
  keyWaitReg : Reg
  /-- `status` (R30). -/
  status : Status
  /-- The fault record (R31). -/
  fault : Option FaultRecord
  /-- Input: the held-key vector; key k is held iff bit k is 1 (R32, R108). -/
  keys : BitVec 16
  /-- Input: the random byte of the current Step (R103). -/
  rand8 : Byte
  /-- Output `error`: the stack errors reported in ignore mode, oldest first (R112, R257). -/
  errors : List FaultKind
  /-- MODEL'S OWN: how many Steps took their random byte from the free value `Config.rand8` (log entry 5). -/
  draws : Nat
  /-- MODEL'S OWN: the host's coming events, next one first; when there is none, the host issues Steps
  while they are enabled (R100, R114; log entry 1). -/
  events : List Event
  deriving DecidableEq, Repr

/-- The state after Init with the reference configuration and an empty program (R36, R280, R281). Memory
lists nothing: an unlisted address reads as its reset content, font or zero. -/
def State.reset : State where
  cfg := Config.reference
  mem := []
  regs := Vector.replicate 16 0
  I := 0
  pc := 0x200
  stack := Vector.replicate 32 0
  sp := 0
  DT := 0
  ST := 0
  fb := Vector.replicate 64 (Vector.replicate 32 false)
  redraw := false
  keyWait := false
  keyWaitReg := 0
  status := .run
  fault := none
  keys := 0
  rand8 := 0
  errors := []
  draws := 0
  events := []

end Sys2Proof.Machine
end

