-- ==== Sys2Proof/Machine/Operands.lean ====
section
/-! DEFINITION. Reading and writing operands: registers, widened bytes, the register index a jump uses, a
shift's source, a sprite's origin, a logical key (spec/10_state.md R20; files 41 to 45). -/

namespace Sys2Proof.Machine

/-- Read `V[x]` (R20). -/
def State.v (s : State) (x : Reg) : Byte := s.regs[x.toNat]

/-- `V[x] <- b` (R20). -/
def State.setV (s : State) (x : Reg) (b : Byte) : State := { s with regs := s.regs.set x.toNat b }

/-- A byte as a 16-bit value, zero-extended (R10). -/
def zext16 (b : Byte) : Word := b.setWidth 16

/-- The 12-bit field nnn as a 16-bit value, zero-extended (R10, R71). -/
def target16 (nnn : Addr12) : Word := nnn.setWidth 16

/-- The `x` of BNNN: nnn's high nibble (R127). -/
def highNibble (nnn : Addr12) : Reg := nnn.extractLsb' 8 4

/-- The register BNNN adds: V[x] when `cfg.jump_uses_vx`, else V[0] (R127). -/
def jumpReg (c : Config) (nnn : Addr12) : Reg := if c.jumpUsesVx then highNibble nnn else 0

/-- The source of 8XY6 and 8XYE: V[y] when `cfg.shift_legacy`, else V[x] (R151, R152). -/
def shiftSource (s : State) (x y : Reg) : Byte := if s.cfg.shiftLegacy then s.v y else s.v x

/-- The column a sprite starts at: the position always wraps (R192). -/
def startColumn (b : Byte) : Nat := b.toNat % 64

/-- The row a sprite starts at: the position always wraps (R192). -/
def startRow (b : Byte) : Nat := b.toNat % 32

/-- Is logical key k held? (R32) -/
def State.keyHeld (s : State) (k : Nat) : Bool := s.keys.getLsbD k

/-- `KeyPress` delivers its key as an 8-bit value 0..15 (R107). -/
def keyByte (k : Nibble) : Byte := k.setWidth 8

end Sys2Proof.Machine
end

