-- ==== Sys2Proof/Machine/Flags.lean ====
section
/-! DEFINITION. Every flag computation of the spec: what is written to VF, and when (spec/10_state.md R21;
spec/42_alu.md R140, R141; spec/43_index_memory.md R171; spec/44_display.md R192). -/

namespace Sys2Proof.Machine

/-- A flag as the byte VF receives: 1 or 0. -/
def flagByte (b : Bool) : Byte := if b then 1 else 0

/-- Carry of 8XY4: the 9-bit sum exceeded 255 (R148). -/
def carryFlag (a b : Byte) : Bool := a.toNat + b.toNat > 255

/-- Flag of `a - b` in 8XY5 and, with the operands swapped, in 8XY7: 0 if b > a (a borrow), else 1
(R149, R150). -/
def noBorrowFlag (a b : Byte) : Bool := !(b.toNat > a.toNat)

/-- The bit 8XY6 shifts out: bit 0 (R151). -/
def lowBitFlag (a : Byte) : Bool := a.getLsbD 0

/-- The bit 8XYE shifts out: bit 7 (R152). -/
def highBitFlag (a : Byte) : Bool := a.getLsbD 7

/-- Result first, flag last: with x = 15 the final VF is the flag (R141). -/
def State.setVWithFlag (s : State) (x : Reg) (result : Byte) (flag : Bool) : State :=
  (s.setV x result).setV VF (flagByte flag)

/-- After 8XY1, 8XY2, 8XY3: VF <- 0 under `cfg.reset_flag_on_logic_ops`, else nothing (R145). -/
def State.resetFlagOnLogic (s : State) : State := if s.cfg.resetFlagOnLogicOps then s.setV VF 0 else s

/-- After FX1E: VF <- 1 when the quirk is on and the new I exceeds 0xFFF; VF is never cleared (R171). -/
def State.flagIndexOverflow (s : State) : State :=
  if s.cfg.indexOverflowSetsVf && decide (s.I.toNat > 0xFFF) then s.setV VF 1 else s

end Sys2Proof.Machine
end

