-- ==== Sys2Proof/Machine/Ops.lean ====
section
/-! DEFINITION. The named operations the meanings share: memory, the program counter, taking an error, the
call stack, the pixel engine (spec/20_memory.md, 40_cycle.md R104, 41_flow.md, 44_display.md,
60_exceptions.md R256, R257). -/

namespace Sys2Proof.Machine

/-- What an instruction or a step answers. -/
abbrev Result := Host.Outcome State Fault Refusal

/-! ### Memory (R50, R52, R58) -/

/-- What an address that memory does not list reads as: its content after "zero-initialized then
font-seeded" (R36, R280), so the font byte below 0x050 and zero above. -/
def blankByte (c : Config) (a : Nat) : Byte := c.font[a]?.getD 0

/-- The byte a cell lists for an address, if one does. -/
def Memory.lookup : Memory → Nat → Option Byte
  | [], _ => none
  | (b, v) :: m, a => if b = a then some v else Memory.lookup m a

/-- The byte at an address. -/
def Memory.read (c : Config) (m : Memory) (a : Nat) : Byte := (Memory.lookup m a).getD (blankByte c a)

/-- List a cell, keeping the addresses rising. -/
def Memory.insert : Memory → Nat → Byte → Memory
  | [], a, v => [(a, v)]
  | (b, w) :: m, a, v =>
    if a < b then (a, v) :: (b, w) :: m
    else if a = b then (a, v) :: m
    else (b, w) :: Memory.insert m a v

/-- Drop the cell of an address. -/
def Memory.erase (m : Memory) (a : Nat) : Memory := m.filter fun p => p.1 != a

/-- Write one byte, keeping the canonical form: the value an unlisted address reads as removes the cell. -/
def Memory.write (c : Config) (m : Memory) (a : Nat) (v : Byte) : Memory :=
  if v = blankByte c a then Memory.erase m a else Memory.insert m a v

/-- The canonical form: addresses strictly rising and inside the address space (R50), and no cell equal to
what its address reads as when unlisted. -/
abbrev Memory.wf (c : Config) (m : Memory) : Prop :=
  m.Pairwise (fun p q => p.1 < q.1) ∧ ∀ p ∈ m, p.1 < 0x1000 ∧ p.2 ≠ blankByte c p.1

/-- The byte at an address that is in range (R52: `M[a]`). -/
def State.byte (s : State) (a : Nat) : Byte := Memory.read s.cfg s.mem a

/-- Write a byte at an address that is in range (R52: `M[a] <- v`). -/
def State.setByte (s : State) (a : Nat) (v : Byte) : State := { s with mem := Memory.write s.cfg s.mem a v }

/-- The lowest address above 0xFFF among `base .. base + n - 1`, if there is one: the address an
AddressFault records (R52, R253). Addresses are natural numbers, never reduced. -/
def firstOutOfRange (base n : Nat) : Option Nat :=
  ((List.range n).map (base + ·)).find? (fun a => a > 0xFFF)

/-- The n bytes from an address on, at ascending addresses (R57). -/
def State.readBytes (s : State) (base n : Nat) : List Byte := (List.range n).map fun k => s.byte (base + k)

/-- Write bytes from an address on, at ascending addresses (R57). -/
def State.writeBytes (s : State) (base : Nat) : List Byte → State
  | [] => s
  | b :: bs => (s.setByte base b).writeBytes (base + 1) bs

/-- `for i in 0..n-1: MemWrite(base + i, 1, V[i])` (R174). -/
def State.storeRegs (s : State) (base n : Nat) : State :=
  (List.range n).foldl (fun t i => t.setByte (base + i) (t.v (BitVec.ofNat 4 i))) s

/-- `for i in 0..n-1: V[i] <- MemRead(base + i, 1)` (R175). -/
def State.loadRegs (s : State) (base n : Nat) : State :=
  (List.range n).foldl (fun t i => t.setV (BitVec.ofNat 4 i) (t.byte (base + i))) s

/-- `if cfg.increment_index_on_load_store: I <- (I + n) mod 65536` (R174, R175, with n = x + 1). -/
def State.advanceIndex (s : State) (n : Nat) : State :=
  if s.cfg.incrementIndexOnLoadStore then { s with I := s.I + BitVec.ofNat 16 n } else s

/-! ### The program counter (R23, R102, R104) -/

/-- The fetch advance `pc <- (a + 2) mod 65536` (R102). Every meaning but HALT's starts from it. -/
def State.advance (s : State) : State := { s with pc := s.pc + 2 }

/-- `pc <- target` (R23). -/
def State.jump (s : State) (target : Word) : State := { s with pc := target }

/-- `if taken then skip()`, on a state whose pc already is the next instruction's address (R104). -/
def State.skipIf (s : State) (taken : Bool) : State := if taken then s.jump (s.pc + 2) else s

/-! ### Taking an error (R256, R257). There is no return from one (R259): no instruction leaves FAULT. -/

/-- The numeric code of an error kind (R250). -/
def FaultKind.code : FaultKind → Nat
  | .stackOverflow => 1
  | .stackUnderflow => 2
  | .addressFault => 3
  | .keyIndexFault => 4
  | .loadError => 5

/-- Fatal entry: the state before the Step, with status FAULT and the record of the kind, the faulting
instruction's own address and the info. `s0` is that state, its pc not advanced (R256). -/
def raiseFatal (kind : FaultKind) (info : Nat) (s0 : State) : Result :=
  .next { s0 with status := .fault, fault := some ⟨kind, s0.pc, info⟩ }

/-- Ignore mode: the state before the Step with the pc advanced, and the kind on the `error` output (R257). -/
def ignoreError (kind : FaultKind) (s0 : State) : Result :=
  .next { s0.advance with errors := s0.errors ++ [kind] }

/-- Raise an error kind. Stack errors obey `cfg.stack_error_mode`; the others are always fatal (R250). -/
def raise (kind : FaultKind) (info : Nat) (s0 : State) : Result :=
  match kind, s0.cfg.stackErrorMode with
  | .stackOverflow, .ignore => ignoreError kind s0
  | .stackUnderflow, .ignore => ignoreError kind s0
  | _, _ => raiseFatal kind info s0

/-- Check a whole access range before any effect, then go on with `k` (R253, R260). -/
def withRange (s0 : State) (base n : Nat) (k : State) : Result :=
  match firstOutOfRange base n with
  | some a => raise .addressFault a s0
  | none => .next k

/-! ### The call stack (R24) -/

/-- Are all `cfg.stack_depth` slots occupied? On every state with `sp ≤ cfg.stack_depth` this is
`sp = cfg.stack_depth` (R122, R251). -/
def State.stackFull (s : State) : Bool := decide (s.cfg.stackDepth.slots ≤ s.sp)

/-- `stack[sp] <- w; sp <- sp + 1` (R122). -/
def State.push (s : State) (w : Word) : State :=
  { s with stack := s.stack.setIfInBounds s.sp w, sp := s.sp + 1 }

/-- Slot k of the call stack (R24). -/
def State.slot (s : State) (k : Nat) : Word := s.stack[k]?.getD 0

/-- `sp <- sp - 1; pc <- stack[sp]`; the slot is left as it was (R120). -/
def State.popToPc (s : State) : State := { s with sp := s.sp - 1, pc := s.slot (s.sp - 1) }

/-! ### The pixel engine (R190, R192, R194) -/

/-- Test a pixel (R190). -/
def Framebuffer.pixel (fb : Framebuffer) (p : Pixel) : Bool := fb[p.1.val][p.2.val]

/-- Toggle a pixel (R190). -/
def Framebuffer.toggle (fb : Framebuffer) (p : Pixel) : Framebuffer :=
  fb.set p.1.val (fb[p.1.val].set p.2.val (!(Framebuffer.pixel fb p)))

/-- Clear all pixels (R190, R191). -/
def Framebuffer.blank : Framebuffer := Vector.replicate 64 (Vector.replicate 32 false)

/-- Where the sprite pixel b columns right of and r rows below the start (x0, y0) is drawn: nowhere when it is
clipped, modulo the screen's size when wrapping (R192, R194). -/
def spriteTarget (clip : Bool) (x0 y0 b r : Nat) : Option Pixel :=
  if clip then
    if h : x0 + b < 64 ∧ y0 + r < 32 then some (⟨x0 + b, h.1⟩, ⟨y0 + r, h.2⟩) else none
  else
    some (⟨(x0 + b) % 64, Nat.mod_lt _ (by decide)⟩, ⟨(y0 + r) % 32, Nat.mod_lt _ (by decide)⟩)

/-- Bit b of a sprite row, b = 0 the leftmost column: `(row >> (7 - b)) & 1` (R192, R193). -/
def spriteBit (row : Byte) (b : Nat) : Bool := row.getLsbD (7 - b)

/-- The pixels one sprite row draws, from the left (R192). -/
def rowPixels (clip : Bool) (x0 y0 r : Nat) (row : Byte) : List Pixel :=
  (List.range 8).filterMap fun b => if spriteBit row b then spriteTarget clip x0 y0 b r else none

/-- The pixels a sprite draws, row by row from row r on (R192). -/
def spritePixels (clip : Bool) (x0 y0 : Nat) : Nat → List Byte → List Pixel
  | _, [] => []
  | r, row :: rows => rowPixels clip x0 y0 r row ++ spritePixels clip x0 y0 (r + 1) rows

/-- Draw one pixel: `if fb[px][py]: c <- 1`, then toggle (R192). -/
def drawPixel (acc : Framebuffer × Bool) (p : Pixel) : Framebuffer × Bool :=
  (Framebuffer.toggle acc.1 p, acc.2 || Framebuffer.pixel acc.1 p)

/-- Draw pixels in order, from c = 0; the result is the framebuffer and the collision c (R192). -/
def drawPixels (fb : Framebuffer) (ps : List Pixel) : Framebuffer × Bool := ps.foldl drawPixel (fb, false)

end Sys2Proof.Machine
end

