-- ==== Sys2Proof/Machine/Alu.lean ====
section
/-! DEFINITION. Register file and ALU (spec/42_alu.md R140 to R153). Operands are read from `s`, the state
before any write (R140). -/

namespace Sys2Proof.Machine

/-- LD_IMM (R142). -/
def execLdImm (x : Reg) (nn : Byte) (s : State) : Result := .next (s.advance.setV x nn)

/-- ADD_IMM: 8-bit wraparound, no flag (R143). -/
def execAddImm (x : Reg) (nn : Byte) (s : State) : Result := .next (s.advance.setV x (s.v x + nn))

/-- LD_REG (R144). -/
def execLdReg (x y : Reg) (s : State) : Result := .next (s.advance.setV x (s.v y))

/-- OR (R145). -/
def execOr (x y : Reg) (s : State) : Result := .next (s.advance.setV x (s.v x ||| s.v y)).resetFlagOnLogic

/-- AND (R146). -/
def execAnd (x y : Reg) (s : State) : Result := .next (s.advance.setV x (s.v x &&& s.v y)).resetFlagOnLogic

/-- XOR (R147). -/
def execXor (x y : Reg) (s : State) : Result := .next (s.advance.setV x (s.v x ^^^ s.v y)).resetFlagOnLogic

/-- ADD_REG (R148). -/
def execAddReg (x y : Reg) (s : State) : Result :=
  .next (s.advance.setVWithFlag x (s.v x + s.v y) (carryFlag (s.v x) (s.v y)))

/-- SUB: V[x] - V[y] (R149). -/
def execSub (x y : Reg) (s : State) : Result :=
  .next (s.advance.setVWithFlag x (s.v x - s.v y) (noBorrowFlag (s.v x) (s.v y)))

/-- SUBN: V[y] - V[x] (R150). -/
def execSubn (x y : Reg) (s : State) : Result :=
  .next (s.advance.setVWithFlag x (s.v y - s.v x) (noBorrowFlag (s.v y) (s.v x)))

/-- SHR (R151). -/
def execShr (x y : Reg) (s : State) : Result :=
  .next (s.advance.setVWithFlag x (shiftSource s x y >>> 1) (lowBitFlag (shiftSource s x y)))

/-- SHL (R152). -/
def execShl (x y : Reg) (s : State) : Result :=
  .next (s.advance.setVWithFlag x (shiftSource s x y <<< 1) (highBitFlag (shiftSource s x y)))

/-- RND: the random byte of this Step, masked (R153, R103). -/
def execRnd (x : Reg) (nn : Byte) (s : State) : Result := .next (s.advance.setV x (s.rand8 &&& nn))

end Sys2Proof.Machine
end

