-- ==== Sys2Proof/Machine/Display.lean ====
section
/-! DEFINITION. Framebuffer instructions (spec/44_display.md R191, R192). -/

namespace Sys2Proof.Machine

/-- CLS (R191). -/
def execCls (s : State) : Result := .next { s.advance with fb := Framebuffer.blank, redraw := true }

/-- The pixels DXYN draws from a state, in order: all n rows are read from I on, V[x] and V[y] give the start
(R192). -/
def spriteOf (x y : Reg) (n : Nibble) (s : State) : List Pixel :=
  spritePixels s.cfg.clipSprites (startColumn (s.v x)) (startRow (s.v y)) 0
    (s.readBytes s.I.toNat n.toNat)

/-- DRW: VF is written after V[x] and V[y] were read; the range is checked whether or not rows are clipped
(R192). -/
def execDrw (x y : Reg) (n : Nibble) (s : State) : Result :=
  withRange s s.I.toNat n.toNat
    ({ s.advance with fb := (drawPixels s.fb (spriteOf x y n s)).1, redraw := true }.setV VF
      (flagByte (drawPixels s.fb (spriteOf x y n s)).2))

end Sys2Proof.Machine
end

