-- ==== Sys2Proof/Machine/Flow.lean ====
section
/-! DEFINITION. Control transfer (spec/41_flow.md R120 to R127). -/

namespace Sys2Proof.Machine

/-- RET (R120). -/
def execRet (s : State) : Result :=
  if s.sp = 0 then raise .stackUnderflow s.sp s else .next s.advance.popToPc

/-- JP (R121). -/
def execJp (nnn : Addr12) (s : State) : Result := .next (s.advance.jump (target16 nnn))

/-- CALL: the pushed pc is the address of the next instruction (R122). -/
def execCall (nnn : Addr12) (s : State) : Result :=
  if s.stackFull then raise .stackOverflow s.sp s
  else .next ((s.advance.push s.advance.pc).jump (target16 nnn))

/-- SE_IMM (R123). -/
def execSeImm (x : Reg) (nn : Byte) (s : State) : Result := .next (s.advance.skipIf (s.v x == nn))

/-- SNE_IMM (R124). -/
def execSneImm (x : Reg) (nn : Byte) (s : State) : Result := .next (s.advance.skipIf (s.v x != nn))

/-- SE_REG (R125). -/
def execSeReg (x y : Reg) (s : State) : Result := .next (s.advance.skipIf (s.v x == s.v y))

/-- SNE_REG (R126). -/
def execSneReg (x y : Reg) (s : State) : Result := .next (s.advance.skipIf (s.v x != s.v y))

/-- JP_OFFSET; the sum is not reduced mod 4096 (R127). -/
def execJpOffset (nnn : Addr12) (s : State) : Result :=
  .next (s.advance.jump (target16 nnn + zext16 (s.v (jumpReg s.cfg nnn))))

end Sys2Proof.Machine
end

