-- ==== Sys2Proof/Machine/IndexMemory.lean ====
section
/-! DEFINITION. Index register and memory instructions (spec/43_index_memory.md R170 to R175). -/

namespace Sys2Proof.Machine

/-- LD_INDEX (R170). -/
def execLdIndex (nnn : Addr12) (s : State) : Result := .next { s.advance with I := target16 nnn }

/-- ADD_INDEX (R171). -/
def execAddIndex (x : Reg) (s : State) : Result :=
  .next { s.advance with I := s.I + zext16 (s.v x) }.flagIndexOverflow

/-- LD_FONT: V[x] is not masked (R172). -/
def execLdFont (x : Reg) (s : State) : Result := .next { s.advance with I := zext16 (s.v x) * 5 }

/-- The decimal digits of a byte: hundreds, tens, ones (R173). -/
def decimalDigits (b : Byte) : List Byte :=
  [BitVec.ofNat 8 (b.toNat / 100), BitVec.ofNat 8 (b.toNat / 10 % 10), BitVec.ofNat 8 (b.toNat % 10)]

/-- LD_BCD (R173). -/
def execLdBcd (x : Reg) (s : State) : Result :=
  withRange s s.I.toNat 3 (s.advance.writeBytes s.I.toNat (decimalDigits (s.v x)))

/-- STORE_REGS (R174). -/
def execStoreRegs (x : Reg) (s : State) : Result :=
  withRange s s.I.toNat (x.toNat + 1)
    ((s.advance.storeRegs s.I.toNat (x.toNat + 1)).advanceIndex (x.toNat + 1))

/-- LOAD_REGS (R175). -/
def execLoadRegs (x : Reg) (s : State) : Result :=
  withRange s s.I.toNat (x.toNat + 1)
    ((s.advance.loadRegs s.I.toNat (x.toNat + 1)).advanceIndex (x.toNat + 1))

end Sys2Proof.Machine
end

