-- ==== Sys2Proof/Machine/KeypadTimers.lean ====
section
/-! DEFINITION. Keypad and timer instructions (spec/45_input_timers.md R210 to R215). -/

namespace Sys2Proof.Machine

/-- SKP (R210, R254). -/
def execSkp (x : Reg) (s : State) : Result :=
  if (s.v x).toNat > 15 then raise .keyIndexFault (s.v x).toNat s
  else .next (s.advance.skipIf (s.keyHeld (s.v x).toNat))

/-- SKNP (R211, R254). -/
def execSknp (x : Reg) (s : State) : Result :=
  if (s.v x).toNat > 15 then raise .keyIndexFault (s.v x).toNat s
  else .next (s.advance.skipIf (!(s.keyHeld (s.v x).toNat)))

/-- LD_VX_DT (R212). -/
def execLdVxDt (x : Reg) (s : State) : Result := .next (s.advance.setV x s.DT)

/-- LD_DT_VX (R213). -/
def execLdDtVx (x : Reg) (s : State) : Result := .next { s.advance with DT := s.v x }

/-- LD_ST_VX (R214). -/
def execLdStVx (x : Reg) (s : State) : Result := .next { s.advance with ST := s.v x }

/-- LD_VX_K: the wait begins with pc already advanced; a KeyPress event ends it (R215). -/
def execLdVxK (x : Reg) (s : State) : Result := .next { s.advance with keyWait := true, keyWaitReg := x }

end Sys2Proof.Machine
end

