-- ==== Sys2Proof/Machine/NoopHalt.lean ====
section
/-! DEFINITION. No-op encodings and termination (spec/46_noop_halt.md R230 to R236). -/

namespace Sys2Proof.Machine

/-- HALT: status <- HALT; pc stays at the 0x0000 word (R231, R102). -/
def execHalt (s : State) : Result := .next { s with status := .halt }

/-- SYS: nothing but the fetch advance (R230). -/
def execSys (_nnn : Addr12) (s : State) : Result := .next s.advance

/-- NOP_5 (R232). -/
def execNop5 (_x _y : Reg) (_n : Nibble) (s : State) : Result := .next s.advance

/-- NOP_8 (R233). -/
def execNop8 (_x _y : Reg) (_n : Nibble) (s : State) : Result := .next s.advance

/-- NOP_9 (R234). -/
def execNop9 (_x _y : Reg) (_n : Nibble) (s : State) : Result := .next s.advance

/-- NOP_E; V[x] is not checked against 15 (R235). -/
def execNopE (_x : Reg) (_nn : Byte) (s : State) : Result := .next s.advance

/-- NOP_F (R236). -/
def execNopF (_x : Reg) (_nn : Byte) (s : State) : Result := .next s.advance

end Sys2Proof.Machine
end

