-- ==== Sys2Proof/Machine/HostEvents.lean ====
section
/-! DEFINITION. The host's events other than Step (spec/40_cycle.md R105 to R109). After HALT or FAULT none of
them changes core state (spec/10_state.md R30). -/

namespace Sys2Proof.Machine

/-- DelayTick (R105). -/
def delayTick (s : State) : State :=
  if s.status = .run ∧ s.DT.toNat > 0 then { s with DT := s.DT - 1 } else s

/-- SoundTick (R106). -/
def soundTick (s : State) : State :=
  if s.status = .run ∧ s.ST.toNat > 0 then { s with ST := s.ST - 1 } else s

/-- KeyPress(k): resolves a pending wait, else has no effect; `keys` is not changed (R107). -/
def keyPress (k : Nibble) (s : State) : State :=
  if s.status = .run ∧ s.keyWait = true then { s.setV s.keyWaitReg (keyByte k) with keyWait := false } else s

/-- SetKeys(m): keys[k] <- (m >> k) & 1. It writes an input, no core state, so it acts at any time (R108;
DEDUCED: log entry 12). -/
def setKeys (m : BitVec 16) (s : State) : State := { s with keys := m }

/-- RedrawAck: redraw <- false (R109), but nothing after the end of the run (R30; DEDUCED: log entry 11). -/
def redrawAck (s : State) : State := if s.status = .run then { s with redraw := false } else s

end Sys2Proof.Machine
end

