-- ==== Sys2Proof/Machine/Cycle.lean ====
section
/-! DEFINITION. One Step (spec/40_cycle.md R101, R102, R103), one event of the host (R100, R114), and placing an
instruction where the next fetch finds it. -/

namespace Sys2Proof.Machine

/-- A Step is enabled exactly when status = RUN and key_wait = false (R101). -/
def State.stepEnabled (s : State) : Bool := s.status == .run && !s.keyWait

/-- The word at pc, big-endian (R55, R70, R102). -/
def State.fetchedWord (s : State) : Word := Word.ofBytes (s.byte s.pc.toNat) (s.byte (s.pc.toNat + 1))

/-- Fetch, decode, execute (R102). The fetch's AddressFault comes before the word is decoded (R260). The word
0x0000 decodes to HALT, whose meaning does not advance pc; every other meaning advances it first. -/
def fetchExecute (s : State) : Result :=
  match firstOutOfRange s.pc.toNat 2 with
  | some a => raise .addressFault a s
  | none => exec (decodeWord s.fetchedWord) s

/-- The Step event with its random byte (R101, R103). A Step that is not enabled dispatches nothing: "the driver
must skip instruction dispatch". -/
def stepEvent (r : Byte) (s : State) : Result :=
  if s.stepEnabled then fetchExecute { s with rand8 := r } else .next s

/-- One event of the host (R100, R114). -/
def handleEvent (e : Event) (s : State) : Result :=
  match e with
  | .step r => stepEvent r s
  | .delayTick => .next (delayTick s)
  | .soundTick => .next (soundTick s)
  | .keyPress k => .next (keyPress k s)
  | .setKeys m => .next (setKeys m s)
  | .redrawAck => .next (redrawAck s)

/-- The host issues a Step of its own accord, with a free random byte, when one is enabled; else the core
holds, unchanged (R101; log entries 1, 2, 5). -/
def freeStep (s : State) : Result :=
  if s.stepEnabled then fetchExecute { s with rand8 := Config.rand8 s.draws, draws := s.draws + 1 }
  else .next s

/-- The machine takes its next event: the first of the host's coming events, or a Step when there is none. -/
def nextEvent (s : State) : Result :=
  match s.events with
  | [] => freeStep s
  | e :: rest => handleEvent e { s with events := rest }

/-- Make the very next event a Step that fetches in range: no coming event, status RUN with no fault, no key
wait, and pc as it is unless no whole word stands there (then the load base 0x200). -/
def State.readyToFetch (s : State) : State :=
  { s with
    events := [], keyWait := false, status := .run
    fault := if s.status = .run then s.fault else none
    pc := if s.pc.toNat + 1 ≤ 0xFFF then s.pc else 0x200 }

/-- The state ready to fetch, with a word's two bytes stored at pc, high byte first (R55). -/
def State.placeWord (s : State) (w : Word) : State :=
  s.readyToFetch.writeBytes s.readyToFetch.pc.toNat [w.hiByte, w.loByte]

end Sys2Proof.Machine
end

