-- ==== Sys2Proof/Machine/Step.lean ====
section
/-! DEFINITION. The step of the machine: one event of the host (spec/40_cycle.md R100, R114). -/

namespace Sys2Proof.Machine

/-- One step: the next event of the host. -/
def step (s : State) : Host.Outcome State Fault Refusal := nextEvent s

/-- The state with an instruction of spec/opcode_table.json, numbered as the table numbers it, where step
fetches its next instruction (log entry 8). -/
def State.withFetchWord (s : State) (nbits w : Nat) : State := s.placeWord (tableWord nbits w)

end Sys2Proof.Machine
end

