-- ==== Sys2Proof/Machine/Init.lean ====
section
/-! DEFINITION. Init, the only reset, and the program load (spec/70_reset_and_hazards.md R280, R281;
spec/60_exceptions.md R255). -/

namespace Sys2Proof.Machine

/-- Init(program, cfg): memory zero-initialised and font-seeded (that is memory with nothing listed), then
program-seeded from 0x200 with at most 0xE00 bytes; everything else as in R36 (R280, R281). -/
def State.init (program : List Byte) (cfg : Config) : State :=
  { State.reset with cfg := cfg }.writeBytes 0x200 (program.take 0xE00)

/-- The host's loader hands over the program bytes, or nothing when the file cannot be read: then it issues
no Init, no core exists, and the caller gets LoadError (R255). -/
def load (program : Option (List Byte)) (cfg : Config) : Except FaultKind State :=
  match program with
  | none => .error .loadError
  | some bytes => .ok (State.init bytes cfg)

end Sys2Proof.Machine
end

