-- ==== Sys2Proof/Machine/Ports.lean ====
section
/-! DEFINITION. The core's output ports (spec/40_cycle.md R110 to R113). Reading one changes nothing. -/

namespace Sys2Proof.Machine

/-- The renderer's view: is pixel (px, py) on? (R110) -/
def State.pixelOn (s : State) (p : Pixel) : Bool := Framebuffer.pixel s.fb p

/-- `sound_active = (ST ≠ 0)` (R111). -/
def State.soundActive (s : State) : Bool := s.ST != 0

/-- The status outputs: status, fault and key_wait (R112). -/
def State.statusOut (s : State) : Status × Option FaultRecord × Bool := (s.status, s.fault, s.keyWait)

/-- The `error` output: the kind of the last ignored stack error, if any (R112, R257). -/
def State.errorOut (s : State) : Option FaultKind := s.errors.getLast?

/-- The diagnostic dump: every address with its byte, in order (R113). -/
def State.dump (s : State) : List Host.Cell := (List.range 0x1000).map fun a => (a, s.byte a)

end Sys2Proof.Machine
end

