-- ==== Sys2Proof/Safety.lean ====
section
/-! DEFINITION. The terms statements use: the machine's invariant, the end of a run, and what it means that a
piece of state is unchanged. -/

namespace Sys2Proof.Machine

/-! ### The end of a run and the invariant -/

/-- A run has ended exactly when status is HALT or FAULT (spec/40_cycle.md R115). -/
def State.ended (s : State) : Prop := s.status = .halt ∨ s.status = .fault

/-- Is the kind a stack error, governed by `cfg.stack_error_mode`? (spec/60_exceptions.md R250) -/
def FaultKind.isStackError (k : FaultKind) : Bool := k == .stackOverflow || k == .stackUnderflow

/-- The invariant of the machine. -/
structure State.Inv (s : State) : Prop where
  /-- Memory is in its canonical form, inside the 4096-byte address space (R50). -/
  memory : Memory.wf s.cfg s.mem
  /-- "depth never exceeds capacity" (R24). -/
  depth : s.sp ≤ s.cfg.stackDepth.slots
  /-- Slots the configured stack does not have are never written (R24). -/
  unusedSlots : ∀ k, s.cfg.stackDepth.slots ≤ k → s.slot k = 0
  /-- `fault` is none while status is not FAULT, and a record otherwise (R31). -/
  record : s.fault.isSome = true ↔ s.status = .fault
  /-- The record names the instruction at pc, and a kind that could have been raised: never the loader's, and a
  stack error only in `fatal` mode (R250, R255, R256, R257). -/
  precise : ∀ f, s.fault = some f →
    f.pc = s.pc ∧ f.kind ≠ .loadError ∧ (f.kind.isStackError = true → s.cfg.stackErrorMode = .fatal)
  /-- Only a run that has not ended waits for a key (R30, R101, R115). -/
  waiting : s.keyWait = true → s.status = .run
  /-- Only stack errors reach the `error` output, and only in `ignore` mode (R112, R257). -/
  reported : ∀ k ∈ s.errors, k.isStackError = true ∧ s.cfg.stackErrorMode = .ignore

/-! ### What a sprite covers -/

/-- DXYN's sprite covers pixel p in state s: some set bit b (0 the leftmost) of some row r falls on p, the start
position taken modulo the screen, the pixels after it clipped or wrapped as configured (R192, R193, R194). -/
def SpriteCovers (x y : Reg) (n : Nibble) (s : State) (p : Pixel) : Prop :=
  ∃ r b : Nat, r < n.toNat ∧ b < 8 ∧ (s.byte (s.I.toNat + r)).toNat / 2 ^ (7 - b) % 2 = 1 ∧
    if s.cfg.clipSprites then
      (s.v x).toNat % 64 + b = p.1.val ∧ (s.v y).toNat % 32 + r = p.2.val
    else
      ((s.v x).toNat % 64 + b) % 64 = p.1.val ∧ ((s.v y).toNat % 32 + r) % 32 = p.2.val

/-! ### The states of an error (R256, R257) -/

/-- The state of a fatal error: as before, with status FAULT and the record (R256). -/
def faultState (s : State) (k : FaultKind) (info : Nat) : State :=
  { s with status := .fault, fault := some { kind := k, pc := s.pc, info := info } }

/-- The state of an ignored stack error: as before, with pc at the next instruction and the kind reported
(R257). -/
def ignoredState (s : State) (k : FaultKind) : State :=
  { s with pc := s.pc + 2, errors := s.errors ++ [k] }

/-- Which error kinds an instruction can raise (R250, R260). -/
def mayRaise : Instr → FaultKind → Bool
  | .call _, k => k == .stackOverflow
  | .ret, k => k == .stackUnderflow
  | .drw _ _ _, k => k == .addressFault
  | .ldBcd _, k => k == .addressFault
  | .storeRegs _, k => k == .addressFault
  | .loadRegs _, k => k == .addressFault
  | .skp _, k => k == .keyIndexFault
  | .sknp _, k => k == .keyIndexFault
  | _, _ => false

/-! ### Who may write what (spec/10_state.md R21, R37) -/

/-- The registers an instruction may write: the one it names, VF as a side effect, or V[0..x]. -/
def mayWriteReg (c : Config) (i : Instr) (r : Reg) : Bool :=
  match i with
  | .ldImm x _ | .addImm x _ | .ldReg x _ | .rnd x _ | .ldVxDt x => r == x
  | .or x _ | .and x _ | .xor x _ => r == x || (c.resetFlagOnLogicOps && r == VF)
  | .addReg x _ | .sub x _ | .subn x _ | .shr x _ | .shl x _ => r == x || r == VF
  | .drw _ _ _ => r == VF
  | .addIndex _ => c.indexOverflowSetsVf && r == VF
  | .loadRegs x => decide (r.toNat ≤ x.toNat)
  | _ => false

/-- The instructions that may write I. -/
def mayWriteIndex (c : Config) : Instr → Bool
  | .ldIndex _ | .addIndex _ | .ldFont _ => true
  | .storeRegs _ | .loadRegs _ => c.incrementIndexOnLoadStore
  | _ => false

/-- The instructions that may write memory. -/
def mayWriteMemory : Instr → Bool
  | .ldBcd _ | .storeRegs _ => true
  | _ => false

/-- The instructions that may write the call stack or its pointer. -/
def mayWriteStack : Instr → Bool
  | .ret | .call _ => true
  | _ => false

/-- The instructions that may write the framebuffer or the redraw signal. -/
def mayWriteScreen : Instr → Bool
  | .cls | .drw _ _ _ => true
  | _ => false

/-- The instructions that may write a timer. -/
def mayWriteTimers : Instr → Bool
  | .ldDtVx _ | .ldStVx _ => true
  | _ => false

/-- The instructions that may write the key-wait state. -/
def mayWriteKeyWait : Instr → Bool
  | .ldVxK _ => true
  | _ => false

/-! ### What is unchanged between two states -/

/-- Every register but those listed is unchanged. -/
def SameRegsBut (ds : List Reg) (s t : State) : Prop := ∀ r, r ∉ ds → t.v r = s.v r

/-- Every byte of memory reads as before. -/
def SameMemory (s t : State) : Prop := ∀ a, t.byte a = s.byte a

/-- Every byte of memory but the n bytes from `base` on reads as before. -/
def SameMemoryOutside (base n : Nat) (s t : State) : Prop :=
  ∀ a, ¬(base ≤ a ∧ a < base + n) → t.byte a = s.byte a

/-- The stack pointer and every slot are unchanged. -/
def SameStack (s t : State) : Prop := t.sp = s.sp ∧ ∀ k, t.slot k = s.slot k

/-- Both timers are unchanged. -/
def SameTimers (s t : State) : Prop := t.DT = s.DT ∧ t.ST = s.ST

/-- Every pixel and the redraw signal are unchanged. -/
def SameScreen (s t : State) : Prop := (∀ p, t.pixelOn p = s.pixelOn p) ∧ t.redraw = s.redraw

/-- The key-wait state, the status and the fault record are unchanged. -/
def SameControl (s t : State) : Prop :=
  t.keyWait = s.keyWait ∧ t.keyWaitReg = s.keyWaitReg ∧ t.status = s.status ∧ t.fault = s.fault

/-- The configuration, the inputs, the error output and the model's own fields are unchanged. -/
def SameHost (s t : State) : Prop :=
  t.cfg = s.cfg ∧ t.keys = s.keys ∧ t.rand8 = s.rand8 ∧ t.errors = s.errors ∧ t.draws = s.draws
    ∧ t.events = s.events

/-- All is unchanged but the listed registers, I, pc and memory. -/
def SameRest (ds : List Reg) (s t : State) : Prop :=
  SameRegsBut ds s t ∧ SameStack s t ∧ SameTimers s t ∧ SameScreen s t ∧ SameControl s t ∧ SameHost s t

/-- A register instruction's frame: pc moves to the next instruction, and all else is unchanged but the listed
registers. -/
def OnlyRegsChange (ds : List Reg) (s t : State) : Prop :=
  t.pc = s.pc + 2 ∧ t.I = s.I ∧ SameMemory s t ∧ SameRest ds s t

end Sys2Proof.Machine
end

