-- ==== Sys2Proof/Certificates/Slice0/Obligations.lean ====
section
/-! DEFINITION. The statements for the provers. A statement over all states holds for every configuration, every
random byte and every order of host events, because they are data of the state. -/

open Sys2Proof Sys2Proof.Machine

/-! ### Encoding -/

/-- Words of 95_test_vectors.md 2.1, written out from the encodings, decode to the instruction they stand for. -/
def Obligations.DecoderReadsListedWords : Prop :=
  decodeWord 0x0000 = .halt ∧ decodeWord 0x00E0 = .cls ∧ decodeWord 0x00EE = .ret ∧
  decodeWord 0x00E1 = .sys 0x0E1 ∧ decodeWord 0x1ABC = .jp 0xABC ∧ decodeWord 0x2FFE = .call 0xFFE ∧
  decodeWord 0x3F00 = .seImm 15 0x00 ∧ decodeWord 0x5121 = .nop5 1 2 1 ∧ decodeWord 0x8127 = .subn 1 2 ∧
  decodeWord 0x812E = .shl 1 2 ∧ decodeWord 0x812F = .nop8 1 2 15 ∧ decodeWord 0x9120 = .sneReg 1 2 ∧
  decodeWord 0xB3A0 = .jpOffset 0x3A0 ∧ decodeWord 0xD01F = .drw 0 1 15 ∧ decodeWord 0xE19E = .skp 1 ∧
  decodeWord 0xF165 = .loadRegs 1 ∧ decodeWord 0xFFFF = .nopF 15 0xFF

/-- Decoding the bytes of a well-formed instruction gives it back, with every operand, and leaves the bytes
after it (R55, R70, R75). -/
def Obligations.DecodeOfEncodeIsIdentity : Prop :=
  ∀ (i : Instr) (rest : List Byte), i.wf = true → decode (encodeBytes i ++ rest) = .ok (i, rest)

/-- Every word selects exactly one well-formed instruction, the one the decoder gives (R72, R74). -/
def Obligations.EveryWordIsExactlyOneInstruction : Prop :=
  ∀ w : Word, (decodeWord w).wf = true ∧ encode (decodeWord w) = w ∧
    ∀ i : Instr, i.wf = true → encode i = w → i = decodeWord w

/-! ### The step -/

/-- When the bytes at pc decode to a well-formed instruction and a Step is enabled, the step is exec of that
instruction: with the free random byte of this Step when no event is coming, with the byte the Step event
carries when one is (R101, R102, R103; the form of the random byte is log entry 5). -/
def Obligations.StepRunsTheDecodedInstruction : Prop :=
  ∀ (s : State) (i : Instr), s.status = .run → s.keyWait = false → s.pc.toNat + 1 ≤ 0xFFF → i.wf = true →
    decode [s.byte s.pc.toNat, s.byte (s.pc.toNat + 1)] = .ok (i, []) →
    (s.events = [] → step s = exec i { s with rand8 := Config.rand8 s.draws, draws := s.draws + 1 }) ∧
    (∀ r rest, s.events = .step r :: rest → step s = exec i { s with rand8 := r, events := rest })

/-- A fetch above 0xFFF raises AddressFault with the lowest address above it, whatever the bytes are, with all
else of the core's state unchanged (R102, R253, R256, R260; the fault is the spec's decision D1, the record D8).
That the faulting Step has still taken its event, or drawn its byte and counted it, is the model's choice: the
rollback does not restore them (log entry 24), in the form of the random byte of log entry 5. -/
def Obligations.FetchAboveMemoryFaults : Prop :=
  ∀ s : State, s.status = .run → s.keyWait = false → s.pc.toNat + 1 > 0xFFF →
    (s.events = [] → step s =
      .next (faultState { s with rand8 := Config.rand8 s.draws, draws := s.draws + 1 } .addressFault
        (max s.pc.toNat 0x1000))) ∧
    (∀ r rest, s.events = .step r :: rest → step s =
      .next (faultState { s with rand8 := r, events := rest } .addressFault (max s.pc.toNat 0x1000)))

/-- A Step that is not enabled dispatches nothing; with no event coming the core holds (R101; log entry 2). -/
def Obligations.StepNotEnabledHolds : Prop :=
  ∀ s : State, s.status ≠ .run ∨ s.keyWait = true →
    (s.events = [] → step s = .next s) ∧
    (∀ r rest, s.events = .step r :: rest → step s = .next { s with events := rest })

/-- No state stops the machine: every step answers a next state (R72, R76, R256, R257). -/
def Obligations.EveryStepAnswersNext : Prop :=
  ∀ s : State, ∃ t, step s = .next t

/-- A step takes exactly the first coming event, and no step changes the configuration (R33, R114). -/
def Obligations.StepTakesOneEventKeepsConfig : Prop :=
  ∀ s t : State, step s = .next t → t.events = s.events.tail ∧ t.cfg = s.cfg

/-- The instruction stored by withFetchWord is the one the very next step runs (R55, R102; log entry 8). -/
def Obligations.PlacedWordIsRunNext : Prop :=
  ∀ (s : State) (w : Nat), w < 0x10000 →
    step (s.withFetchWord 16 w) = exec (decodeWord (BitVec.ofNat 16 w))
      { s.withFetchWord 16 w with rand8 := Config.rand8 s.draws, draws := s.draws + 1 }

/-- The run stops with HALT only at the word 0x0000 at pc, and pc stays there (R102, R231; that pc stays is the
spec's decision D5). -/
def Obligations.HaltOnlyAtTheZeroWord : Prop :=
  ∀ s t : State, s.status = .run → step s = .next t → t.status = .halt →
    s.keyWait = false ∧ s.byte s.pc.toNat = 0 ∧ s.byte (s.pc.toNat + 1) = 0 ∧ t.pc = s.pc

/-- After HALT or FAULT no event changes core state: only the coming events and the key input move
(R30, R115; the spec's decision D20; log entries 11, 12). -/
def Obligations.EndedRunIsFinal : Prop :=
  ∀ s t : State, s.ended → step s = .next t →
    t = { s with events := s.events.tail, keys := t.keys } ∧
    ((∀ m rest, s.events ≠ .setKeys m :: rest) → t.keys = s.keys)

/-! ### Invariant -/

/-- The state after reset meets the invariant (R36, R280). -/
def Obligations.ResetMeetsInvariant : Prop := State.reset.Inv

/-- Init with any program and any configuration meets the invariant (R280, R281). -/
def Obligations.InitMeetsInvariant : Prop :=
  ∀ (program : List Byte) (cfg : Config), (State.init program cfg).Inv

/-- Every step keeps the invariant (R24, R30, R31, R50, R256, R257). -/
def Obligations.StepKeepsInvariant : Prop :=
  ∀ s t : State, s.Inv → step s = .next t → t.Inv

/-! ### Errors -/

/-- An instruction that enters FAULT raises a kind of its own row of R250, and nothing else of the state before
it changes (R256, R260; the spec's decisions D8, D32). -/
def Obligations.FaultsArePreciseAndNamed : Prop :=
  ∀ (i : Instr) (s t : State), s.status ≠ .fault → exec i s = .next t → t.status = .fault →
    ∃ k info, mayRaise i k = true ∧ t = faultState s k info

/-- LD_BCD, STORE_REGS, LOAD_REGS and DRW with an address above 0xFFF in their range take AddressFault with the
lowest such address, with no other effect (R173, R174, R175, R192, R253; the spec's decisions D1, D8, D12). -/
def Obligations.AccessAboveMemoryFaults : Prop :=
  ∀ (s : State) (x y : Reg) (n : Nibble),
    (s.I.toNat + 2 > 0xFFF →
      exec (.ldBcd x) s = .next (faultState s .addressFault (max s.I.toNat 0x1000))) ∧
    (s.I.toNat + x.toNat > 0xFFF →
      exec (.storeRegs x) s = .next (faultState s .addressFault (max s.I.toNat 0x1000)) ∧
      exec (.loadRegs x) s = .next (faultState s .addressFault (max s.I.toNat 0x1000))) ∧
    (n ≠ 0 → s.I.toNat + n.toNat - 1 > 0xFFF →
      exec (.drw x y n) s = .next (faultState s .addressFault (max s.I.toNat 0x1000)))

/-- SKP and SKNP with V[x] > 15 take KeyIndexFault recording V[x] (R210, R211, R254; the spec's decision D14). -/
def Obligations.KeyIndexAboveFifteenFaults : Prop :=
  ∀ (s : State) (x : Reg), (s.v x).toNat > 15 →
    exec (.skp x) s = .next (faultState s .keyIndexFault (s.v x).toNat) ∧
    exec (.sknp x) s = .next (faultState s .keyIndexFault (s.v x).toNat)

/-- A CALL with every slot occupied is a reported error: StackOverflow is recorded in fatal mode and goes to the
error output in ignore mode; neither jumps, pc staying at the CALL in fatal mode and moving to the instruction
after it in ignore mode (R251; what each mode leaves is the spec's decisions D7, D8). -/
def Obligations.CallOnFullStackIsReported : Prop :=
  ∀ (s : State) (nnn : Addr12), s.sp = s.cfg.stackDepth.slots →
    ∃ t, exec (.call nnn) s = .next t ∧ SameStack s t ∧
      (s.cfg.stackErrorMode = .fatal →
        t.status = .fault ∧ t.fault.map FaultRecord.kind = some .stackOverflow ∧ t.pc = s.pc) ∧
      (s.cfg.stackErrorMode = .ignore →
        t.status = s.status ∧ t.errors = s.errors ++ [.stackOverflow] ∧ t.pc = s.pc + 2)

/-- A RET with an empty stack yields StackUnderflow, not a silently wrong pc: recorded in fatal mode with pc at
the RET, reported in ignore mode with pc after it (R252). -/
def Obligations.ReturnOnEmptyStackIsReported : Prop :=
  ∀ s : State, s.sp = 0 →
    ∃ t, exec .ret s = .next t ∧ SameStack s t ∧
      (s.cfg.stackErrorMode = .fatal →
        t.status = .fault ∧ t.fault.map FaultRecord.kind = some .stackUnderflow ∧ t.pc = s.pc) ∧
      (s.cfg.stackErrorMode = .ignore →
        t.status = s.status ∧ t.errors = s.errors ++ [.stackUnderflow] ∧ t.pc = s.pc + 2)

/-- The whole state after a stack error: the precise record with sp in fatal mode, a no-op with the kind
reported in ignore mode (R256, R257; the spec's decisions D7, D8). -/
def Obligations.StackErrorsLeaveThePreciseState : Prop :=
  ∀ (s : State) (nnn : Addr12),
    (s.sp = s.cfg.stackDepth.slots → s.cfg.stackErrorMode = .fatal →
      exec (.call nnn) s = .next (faultState s .stackOverflow s.sp)) ∧
    (s.sp = s.cfg.stackDepth.slots → s.cfg.stackErrorMode = .ignore →
      exec (.call nnn) s = .next (ignoredState s .stackOverflow)) ∧
    (s.sp = 0 → s.cfg.stackErrorMode = .fatal → exec .ret s = .next (faultState s .stackUnderflow 0)) ∧
    (s.sp = 0 → s.cfg.stackErrorMode = .ignore → exec .ret s = .next (ignoredState s .stackUnderflow))

/-! ### Who may write what -/

/-- A register changes only by an instruction that names it as its destination, by a flag of R21, or by
LOAD_REGS (R21, R37). -/
def Obligations.RegistersChangeOnlyByTheirWriters : Prop :=
  ∀ (i : Instr) (s t : State) (r : Reg), exec i s = .next t → mayWriteReg s.cfg i r = false → t.v r = s.v r

/-- I, memory, the stack, the screen, the timers and the key wait change only by the instructions R37 lists, and
no instruction changes the configuration or an input (R32, R33, R37, R51). -/
def Obligations.StateChangesOnlyByItsWriters : Prop :=
  ∀ (i : Instr) (s t : State), exec i s = .next t →
    (mayWriteIndex s.cfg i = false → t.I = s.I) ∧
    (mayWriteMemory i = false → SameMemory s t) ∧
    (mayWriteStack i = false → SameStack s t) ∧
    (mayWriteScreen i = false → SameScreen s t) ∧
    (mayWriteTimers i = false → SameTimers s t) ∧
    (mayWriteKeyWait i = false → t.keyWait = s.keyWait ∧ t.keyWaitReg = s.keyWaitReg) ∧
    t.cfg = s.cfg ∧ t.keys = s.keys ∧ t.rand8 = s.rand8 ∧ t.draws = s.draws ∧ t.events = s.events

/-- The random byte is read by RND only, and the held keys by SKP and SKNP only: changing that input changes
nothing else of what any other instruction does (R32, R103; the free input is the spec's decision D25). -/
def Obligations.InputsAreReadOnlyByTheirReaders : Prop :=
  ∀ (i : Instr) (s t : State) (r : Byte) (m : BitVec 16), exec i s = .next t →
    ((∀ x nn, i ≠ .rnd x nn) → exec i { s with rand8 := r } = .next { t with rand8 := r }) ∧
    ((∀ x, i ≠ .skp x) → (∀ x, i ≠ .sknp x) → exec i { s with keys := m } = .next { t with keys := m })

/-! ### No-ops and termination -/

/-- SYS, NOP_8, NOP_E and NOP_F change nothing but pc, and the words of their rows are theirs
(R230, R233, R235, R236). -/
def Obligations.ResidualWordsAreNoOps : Prop :=
  (∀ (s : State) (nnn : Addr12), exec (.sys nnn) s = .next { s with pc := s.pc + 2 }) ∧
  (∀ (s : State) (x y : Reg) (n : Nibble), exec (.nop8 x y n) s = .next { s with pc := s.pc + 2 }) ∧
  (∀ (s : State) (x : Reg) (nn : Byte), exec (.nopE x nn) s = .next { s with pc := s.pc + 2 }) ∧
  (∀ (s : State) (x : Reg) (nn : Byte), exec (.nopF x nn) s = .next { s with pc := s.pc + 2 }) ∧
  (∀ nnn : Addr12, nnn ≠ 0x000 → nnn ≠ 0x0E0 → nnn ≠ 0x0EE → decodeWord (wordNNN 0x0 nnn) = .sys nnn) ∧
  (∀ (x y : Reg) (n : Nibble), n ∈ [0x8, 0x9, 0xA, 0xB, 0xC, 0xD, 0xF] →
    decodeWord (wordXYN 0x8 x y n) = .nop8 x y n) ∧
  (∀ (x : Reg) (nn : Byte), nn ∉ [0x9E, 0xA1] → decodeWord (wordXNN 0xE x nn) = .nopE x nn) ∧
  (∀ (x : Reg) (nn : Byte), nn ∉ [0x07, 0x0A, 0x15, 0x18, 0x1E, 0x29, 0x33, 0x55, 0x65] →
    decodeWord (wordXNN 0xF x nn) = .nopF x nn)

/-- 5XYn and 9XYn with n ≠ 0 are no-ops: they compare nothing (R232, R234; the spec's decision D22). -/
def Obligations.FamiliesFiveAndNineResidualAreNoOps : Prop :=
  ∀ (s : State) (x y : Reg) (n : Nibble),
    exec (.nop5 x y n) s = .next { s with pc := s.pc + 2 } ∧
    exec (.nop9 x y n) s = .next { s with pc := s.pc + 2 } ∧
    (n ≠ 0 → decodeWord (wordXYN 0x5 x y n) = .nop5 x y n ∧ decodeWord (wordXYN 0x9 x y n) = .nop9 x y n)

/-- HALT sets status to HALT and changes nothing else, pc included (R231; the spec's decision D5). -/
def Obligations.HaltStopsTheRun : Prop :=
  ∀ s : State, exec .halt s = .next { s with status := .halt }

/-! ### Control transfer -/

/-- JP: pc is the 12-bit target; nothing else changes (R121). -/
def Obligations.JumpGoesToItsTarget : Prop :=
  ∀ (s : State) (nnn : Addr12), ∃ t, exec (.jp nnn) s = .next t ∧ t.pc.toNat = nnn.toNat ∧
    t.I = s.I ∧ SameMemory s t ∧ SameRest [] s t

/-- JP_OFFSET: pc is nnn plus V[0], or plus V[x] with x = nnn's high nibble under the quirk, not reduced mod
4096; nothing else changes (R127; that the sum is not reduced is the spec's decision D1). -/
def Obligations.JumpOffsetAddsItsRegister : Prop :=
  ∀ (s : State) (nnn : Addr12), ∃ t, exec (.jpOffset nnn) s = .next t ∧
    t.pc.toNat = nnn.toNat +
      (s.v (if s.cfg.jumpUsesVx then BitVec.ofNat 4 (nnn.toNat / 256) else 0)).toNat ∧
    t.I = s.I ∧ SameMemory s t ∧ SameRest [] s t

/-- CALL with a free slot: the address of the next instruction goes to slot sp, sp grows by one, pc is the
target; every other slot and all else are unchanged (R122; the pushed value is the spec's derivation). -/
def Obligations.CallPushesTheReturnAddress : Prop :=
  ∀ (s : State) (nnn : Addr12), s.sp < s.cfg.stackDepth.slots →
    ∃ t, exec (.call nnn) s = .next t ∧ t.pc.toNat = nnn.toNat ∧ t.sp = s.sp + 1 ∧
      t.slot s.sp = s.pc + 2 ∧ (∀ k, k ≠ s.sp → t.slot k = s.slot k) ∧
      t.I = s.I ∧ SameRegsBut [] s t ∧ SameMemory s t ∧ SameTimers s t ∧ SameScreen s t ∧
      SameControl s t ∧ SameHost s t

/-- RET with an occupied slot: sp shrinks by one and pc is the popped slot, which is left as it was; all else is
unchanged (R120). -/
def Obligations.ReturnPopsTheTopSlot : Prop :=
  ∀ s : State, 0 < s.sp →
    ∃ t, exec .ret s = .next t ∧ t.sp = s.sp - 1 ∧ t.pc = s.slot (s.sp - 1) ∧ (∀ k, t.slot k = s.slot k) ∧
      t.I = s.I ∧ SameRegsBut [] s t ∧ SameMemory s t ∧ SameTimers s t ∧ SameScreen s t ∧
      SameControl s t ∧ SameHost s t

/-- A RET in any state whose stack is the one a CALL left returns to the instruction after that CALL, with the
stack pointer as before it (R120, R122, R128). -/
def Obligations.ReturnUndoesCall : Prop :=
  ∀ (s : State) (nnn : Addr12), s.sp < s.cfg.stackDepth.slots →
    ∃ t, exec (.call nnn) s = .next t ∧
      ∀ u : State, SameStack t u → ∃ v, exec .ret u = .next v ∧ v.pc = s.pc + 2 ∧ v.sp = s.sp

/-- SE_IMM and SNE_IMM: pc skips exactly one word when V[x] equals, or differs from, nn; nothing else changes,
so a skipped 0x0000 does not halt (R104, R123, R124). -/
def Obligations.SkipComparesWithImmediate : Prop :=
  ∀ (s : State) (x : Reg) (nn : Byte),
    exec (.seImm x nn) s = .next { s with pc := if s.v x = nn then s.pc + 4 else s.pc + 2 } ∧
    exec (.sneImm x nn) s = .next { s with pc := if s.v x = nn then s.pc + 2 else s.pc + 4 }

/-- SE_REG and SNE_REG: pc skips exactly one word when V[x] and V[y] are equal, or differ; nothing else changes;
with x = y SE_REG always skips and SNE_REG never does; 5XYn and 9XYn with n other than 0 are not these
instructions but NOP_5 and NOP_9 (R125, R126; that last clause is the spec's decision D22, log entry 26). -/
def Obligations.SkipComparesRegisters : Prop :=
  ∀ (s : State) (x y : Reg),
    exec (.seReg x y) s = .next { s with pc := if s.v x = s.v y then s.pc + 4 else s.pc + 2 } ∧
    exec (.sneReg x y) s = .next { s with pc := if s.v x = s.v y then s.pc + 2 else s.pc + 4 } ∧
    exec (.seReg x x) s = .next { s with pc := s.pc + 4 } ∧
    exec (.sneReg x x) s = .next { s with pc := s.pc + 2 } ∧
    (∀ n : Nibble, n ≠ 0 → decodeWord (wordXYN 0x5 x y n) = .nop5 x y n ∧
      decodeWord (wordXYN 0x9 x y n) = .nop9 x y n)

/-! ### Register file and ALU -/

/-- LD_IMM and LD_REG: V[x] is the immediate, or V[y]; no flag, nothing else changes (R142, R144). -/
def Obligations.LoadsWriteTheNamedRegister : Prop :=
  ∀ (s : State) (x y : Reg) (nn : Byte),
    (∃ t, exec (.ldImm x nn) s = .next t ∧ t.v x = nn ∧ OnlyRegsChange [x] s t) ∧
    (∃ t, exec (.ldReg x y) s = .next t ∧ t.v x = s.v y ∧ OnlyRegsChange [x] s t)

/-- ADD_IMM: the sum mod 256, VF written only as a named register; adding 256 - nn mod 256 afterwards restores
V[x] (R143). -/
def Obligations.AddImmediateWraps : Prop :=
  ∀ (s : State) (x : Reg) (nn : Byte),
    ∃ t, exec (.addImm x nn) s = .next t ∧ (t.v x).toNat = ((s.v x).toNat + nn.toNat) % 256 ∧
      OnlyRegsChange [x] s t ∧
      ∃ u, exec (.addImm x (BitVec.ofNat 8 ((256 - nn.toNat) % 256))) t = .next u ∧ u.v x = s.v x

/-- OR, AND, XOR: the bitwise result in V[x]; under the quirk VF is 0 afterwards, also when x = 15; without it VF
is written only as a named register (R145, R146, R147). -/
def Obligations.LogicOpsAndTheirFlagReset : Prop :=
  ∀ (s : State) (x y : Reg),
    ∀ p ∈ [(Instr.or x y, s.v x ||| s.v y), (Instr.and x y, s.v x &&& s.v y),
           (Instr.xor x y, s.v x ^^^ s.v y)],
      ∃ t, exec p.1 s = .next t ∧
        (s.cfg.resetFlagOnLogicOps = false → t.v x = p.2 ∧ OnlyRegsChange [x] s t) ∧
        (s.cfg.resetFlagOnLogicOps = true →
          t.v VF = 0 ∧ (x ≠ VF → t.v x = p.2) ∧ OnlyRegsChange [x, VF] s t)

/-- ADD_REG: the sum mod 256 in V[x], VF = 1 iff the 9-bit sum exceeded 255, else 0; with x = 15 the flag is what
remains (R148; the order for x = 15 is the spec's decision D9). -/
def Obligations.AddRegistersSetsCarry : Prop :=
  ∀ (s : State) (x y : Reg),
    ∃ t, exec (.addReg x y) s = .next t ∧
      (x ≠ VF → (t.v x).toNat = ((s.v x).toNat + (s.v y).toNat) % 256) ∧
      t.v VF = (if (s.v x).toNat + (s.v y).toNat > 255 then 1 else 0) ∧
      OnlyRegsChange [x, VF] s t

/-- SUB and SUBN: the difference mod 256 in V[x], VF = 0 on a borrow, else 1; with x = 15 the flag is what remains
(R149, R150; the order for x = 15 is the spec's decision D9). -/
def Obligations.SubtractionsSetNotBorrow : Prop :=
  ∀ (s : State) (x y : Reg),
    (∃ t, exec (.sub x y) s = .next t ∧
      (x ≠ VF → ((t.v x).toNat : Int) = ((s.v x).toNat - (s.v y).toNat : Int) % 256) ∧
      t.v VF = (if (s.v y).toNat > (s.v x).toNat then 0 else 1) ∧ OnlyRegsChange [x, VF] s t) ∧
    (∃ t, exec (.subn x y) s = .next t ∧
      (x ≠ VF → ((t.v x).toNat : Int) = ((s.v y).toNat - (s.v x).toNat : Int) % 256) ∧
      t.v VF = (if (s.v x).toNat > (s.v y).toNat then 0 else 1) ∧ OnlyRegsChange [x, VF] s t)

/-- SHR and SHL: the source is V[y] in legacy mode and V[x] in modern mode; V[x] is half of it, or its double mod
256; VF is the bit shifted out, also when x = 15 (R151, R152). -/
def Obligations.ShiftsMoveOneBitOut : Prop :=
  ∀ (s : State) (x y : Reg) (src : Byte), src = (if s.cfg.shiftLegacy then s.v y else s.v x) →
    (∃ t, exec (.shr x y) s = .next t ∧ (x ≠ VF → (t.v x).toNat = src.toNat / 2) ∧
      (t.v VF).toNat = src.toNat % 2 ∧ OnlyRegsChange [x, VF] s t) ∧
    (∃ t, exec (.shl x y) s = .next t ∧ (x ≠ VF → (t.v x).toNat = src.toNat * 2 % 256) ∧
      (t.v VF).toNat = src.toNat / 128 ∧ OnlyRegsChange [x, VF] s t)

/-- RND: V[x] is the random byte of this Step masked with nn, so 0 when nn is 0; a Step that carries r and fetches
an RND uses that r (R153). -/
def Obligations.RandomByteIsMasked : Prop :=
  ∀ (s : State) (x : Reg) (nn : Byte),
    (∃ t, exec (.rnd x nn) s = .next t ∧ t.v x = s.rand8 &&& nn ∧ (nn = 0 → t.v x = 0) ∧
      OnlyRegsChange [x] s t) ∧
    (∀ r rest, s.status = .run → s.keyWait = false → s.pc.toNat + 1 ≤ 0xFFF →
      s.events = .step r :: rest →
      decode [s.byte s.pc.toNat, s.byte (s.pc.toNat + 1)] = .ok (.rnd x nn, []) →
      ∃ t, step s = .next t ∧ t.v x = r &&& nn)

/-! ### Index register and memory -/

/-- LD_INDEX: I is nnn. LD_FONT: I is 5 times V[x], unmasked. Nothing else changes (R170, R172). -/
def Obligations.IndexLoads : Prop :=
  ∀ (s : State) (nnn : Addr12) (x : Reg),
    (∃ t, exec (.ldIndex nnn) s = .next t ∧ t.I.toNat = nnn.toNat ∧ t.pc = s.pc + 2 ∧ SameMemory s t ∧
      SameRest [] s t) ∧
    (∃ t, exec (.ldFont x) s = .next t ∧ t.I.toNat = (s.v x).toNat * 5 ∧ t.pc = s.pc + 2 ∧ SameMemory s t ∧
      SameRest [] s t)

/-- ADD_INDEX: I + V[x] mod 65536; VF becomes 1 when the quirk is on and the new I exceeds 0xFFF, and is
unchanged otherwise (R171; that VF is not cleared is the spec's decision D10, the reduction D4). -/
def Obligations.AddIndexAndItsFlag : Prop :=
  ∀ (s : State) (x : Reg),
    ∃ t, exec (.addIndex x) s = .next t ∧ t.I.toNat = (s.I.toNat + (s.v x).toNat) % 65536 ∧
      t.v VF = (if s.cfg.indexOverflowSetsVf = true ∧ t.I.toNat > 0xFFF then 1 else s.v VF) ∧
      t.pc = s.pc + 2 ∧ SameMemory s t ∧ SameRest [VF] s t

/-- LD_BCD in range: the three bytes from I on are the hundreds, tens and ones digit of V[x]; every other byte, I
and all else are unchanged (R173). -/
def Obligations.BcdStoresThreeDigits : Prop :=
  ∀ (s : State) (x : Reg), s.I.toNat + 2 ≤ 0xFFF →
    ∃ t, exec (.ldBcd x) s = .next t ∧
      (t.byte s.I.toNat).toNat = (s.v x).toNat / 100 ∧
      (t.byte (s.I.toNat + 1)).toNat = (s.v x).toNat / 10 % 10 ∧
      (t.byte (s.I.toNat + 2)).toNat = (s.v x).toNat % 10 ∧
      SameMemoryOutside s.I.toNat 3 s t ∧ t.I = s.I ∧ t.pc = s.pc + 2 ∧ SameRest [] s t

/-- STORE_REGS in range: byte I + i is V[i] for i from 0 to x; every other byte is unchanged; I grows by x + 1
mod 65536 under the quirk and is unchanged otherwise (R174). -/
def Obligations.StoreRegistersWritesTheBlock : Prop :=
  ∀ (s : State) (x : Reg), s.I.toNat + x.toNat ≤ 0xFFF →
    ∃ t, exec (.storeRegs x) s = .next t ∧
      (∀ r : Reg, r.toNat ≤ x.toNat → t.byte (s.I.toNat + r.toNat) = s.v r) ∧
      SameMemoryOutside s.I.toNat (x.toNat + 1) s t ∧
      t.I.toNat = (if s.cfg.incrementIndexOnLoadStore then (s.I.toNat + x.toNat + 1) % 65536 else s.I.toNat) ∧
      t.pc = s.pc + 2 ∧ SameRest [] s t

/-- LOAD_REGS in range: V[i] is byte I + i for i from 0 to x, every other register and every byte of memory are
unchanged; I as for STORE_REGS (R175). -/
def Obligations.LoadRegistersReadsTheBlock : Prop :=
  ∀ (s : State) (x : Reg), s.I.toNat + x.toNat ≤ 0xFFF →
    ∃ t, exec (.loadRegs x) s = .next t ∧
      (∀ r : Reg, t.v r = if r.toNat ≤ x.toNat then s.byte (s.I.toNat + r.toNat) else s.v r) ∧
      t.I.toNat = (if s.cfg.incrementIndexOnLoadStore then (s.I.toNat + x.toNat + 1) % 65536 else s.I.toNat) ∧
      t.pc = s.pc + 2 ∧ SameMemory s t ∧ SameStack s t ∧ SameTimers s t ∧ SameScreen s t ∧ SameControl s t ∧
      SameHost s t

/-- Self-modifying code takes effect at the very next fetch: a STORE_REGS through I = pc + 2 makes V[0], V[1] the
next instruction word (R61, R285). -/
def Obligations.StoreIsSeenByTheNextFetch : Prop :=
  ∀ (s : State) (x : Reg), 1 ≤ x.toNat → s.I = s.pc + 2 → s.I.toNat + x.toNat ≤ 0xFFF →
    ∃ t, exec (.storeRegs x) s = .next t ∧ t.fetchedWord.toNat = 256 * (s.v 0).toNat + (s.v 1).toNat

/-- Init places the font at 0x000, the program at 0x200 cut after 0xE00 bytes, and zero everywhere else, with pc
at 0x200, status RUN, an empty stack and no wait pending (R280, R281, R282). -/
def Obligations.InitPlacesFontAndProgram : Prop :=
  ∀ (program : List Byte) (cfg : Config) (a : Nat), a < 0x1000 →
    ((State.init program cfg).byte a =
      if h : a < 80 then cfg.font[a]
      else if h : 0x200 ≤ a ∧ a - 0x200 < program.length then program[a - 0x200] else 0) ∧
    (State.init program cfg).cfg = cfg ∧ (State.init program cfg).pc = 0x200 ∧
    (State.init program cfg).status = .run ∧ (State.init program cfg).sp = 0 ∧
    (State.init program cfg).keyWait = false

/-! ### Framebuffer -/

/-- CLS: all pixels off, redraw set, VF and all else unchanged (R191). -/
def Obligations.ClearScreenTurnsAllPixelsOff : Prop :=
  ∀ s : State, ∃ t, exec .cls s = .next t ∧ (∀ p, t.pixelOn p = false) ∧ t.redraw = true ∧
    t.pc = s.pc + 2 ∧ t.I = s.I ∧ SameRegsBut [] s t ∧ SameMemory s t ∧ SameStack s t ∧ SameTimers s t ∧
    SameControl s t ∧ SameHost s t

/-- DRW in range: exactly the covered pixels are toggled, VF is 1 iff a covered pixel was on, else 0, redraw is
set, all else is unchanged (R192, R193, R194; the bit order is the spec's decision D11, the wrapping D13). -/
def Obligations.DrawTogglesTheCoveredPixels : Prop :=
  ∀ (s : State) (x y : Reg) (n : Nibble), n = 0 ∨ s.I.toNat + n.toNat - 1 ≤ 0xFFF →
    ∃ t, exec (.drw x y n) s = .next t ∧
      (∀ p, SpriteCovers x y n s p → t.pixelOn p = !(s.pixelOn p)) ∧
      (∀ p, ¬SpriteCovers x y n s p → t.pixelOn p = s.pixelOn p) ∧
      ((∃ p, SpriteCovers x y n s p ∧ s.pixelOn p = true) → t.v VF = 1) ∧
      ((¬∃ p, SpriteCovers x y n s p ∧ s.pixelOn p = true) → t.v VF = 0) ∧
      t.redraw = true ∧ t.pc = s.pc + 2 ∧ t.I = s.I ∧ SameRegsBut [VF] s t ∧ SameMemory s t ∧
      SameStack s t ∧ SameTimers s t ∧ SameControl s t ∧ SameHost s t

/-- Drawing the same sprite twice at the same place restores every pixel, and the second draw reports VF = 1
exactly when a covered pixel was off before the first (R192 corner cases; 90_conflicts.md C10). -/
def Obligations.DrawingTwiceRestoresTheScreen : Prop :=
  ∀ (s : State) (x y : Reg) (n : Nibble), n = 0 ∨ s.I.toNat + n.toNat - 1 ≤ 0xFFF →
    ∃ t, exec (.drw x y n) s = .next t ∧
      (t.v x = s.v x → t.v y = s.v y →
        ∃ u, exec (.drw x y n) t = .next u ∧ (∀ p, u.pixelOn p = s.pixelOn p) ∧
          (u.v VF = 1 ↔ ∃ p, SpriteCovers x y n s p ∧ s.pixelOn p = false))

/-! ### Keypad, timers and host events -/

/-- SKP and SKNP with V[x] at most 15: pc skips one word when that key is held, or is not; nothing else changes
(R104, R210, R211). -/
def Obligations.KeySkipsReadTheHeldKeys : Prop :=
  ∀ (s : State) (x : Reg), (s.v x).toNat ≤ 15 →
    exec (.skp x) s =
      .next { s with pc := if s.keys.getLsbD (s.v x).toNat then s.pc + 4 else s.pc + 2 } ∧
    exec (.sknp x) s =
      .next { s with pc := if s.keys.getLsbD (s.v x).toNat then s.pc + 2 else s.pc + 4 }

/-- LD_VX_DT: V[x] is DT, and with no tick in between it reads back exactly what LD_DT_VX wrote (R212). -/
def Obligations.ReadDelayTimer : Prop :=
  ∀ (s : State) (x y : Reg),
    (∃ t, exec (.ldVxDt x) s = .next t ∧ t.v x = s.DT ∧ OnlyRegsChange [x] s t) ∧
    (∃ t u, exec (.ldDtVx y) s = .next t ∧ exec (.ldVxDt x) t = .next u ∧ u.v x = s.v y)

/-- LD_DT_VX and LD_ST_VX: the timer is V[x], so 0 stops the delay timer and silences the sound at once; the
other timer and all else are unchanged (R213, R214, R111; that sound is on exactly when ST is not 0 is the spec's
decision D18, log entry 27). -/
def Obligations.SetTimers : Prop :=
  ∀ (s : State) (x : Reg),
    (∃ t, exec (.ldDtVx x) s = .next t ∧ t.DT = s.v x ∧ t.ST = s.ST ∧ t.pc = s.pc + 2 ∧ t.I = s.I ∧
      SameRegsBut [] s t ∧ SameMemory s t ∧ SameStack s t ∧ SameScreen s t ∧ SameControl s t ∧
      SameHost s t) ∧
    (∃ t, exec (.ldStVx x) s = .next t ∧ t.ST = s.v x ∧ (t.soundActive = true ↔ s.v x ≠ 0) ∧ t.DT = s.DT ∧
      t.pc = s.pc + 2 ∧ t.I = s.I ∧ SameRegsBut [] s t ∧ SameMemory s t ∧ SameStack s t ∧ SameScreen s t ∧
      SameControl s t ∧ SameHost s t)

/-- LD_VX_K begins the wait, changing only pc and the key-wait state; the next KeyPress(k) writes k to V[x] and
ends it, with pc at the instruction after, and changes nothing else: no other register, no timer, not the held
keys (R107, R215; that only a new press ends it, and that it leaves the held keys, is the spec's decision D15). -/
def Obligations.KeyWaitEndsWithKeyPress : Prop :=
  ∀ (s : State) (x : Reg),
    exec (.ldVxK x) s = .next { s with pc := s.pc + 2, keyWait := true, keyWaitReg := x } ∧
    ∀ (k : Nibble) (rest : List Event), s.status = .run → s.events = .keyPress k :: rest →
      ∃ t u, exec (.ldVxK x) s = .next t ∧ step t = .next u ∧ (u.v x).toNat = k.toNat ∧
        SameRegsBut [x] s u ∧
        u = { s with regs := u.regs, pc := s.pc + 2, keyWait := false, keyWaitReg := x, events := rest }

/-- While a wait is pending no step moves pc, memory, I, the stack or a pixel; redraw falls only by a RedrawAck;
a register changes only by a KeyPress, and then only V[key_wait_reg]; and only a KeyPress ends the wait (R101,
R107, R267, R289; that only a KeyPress in the wait ends it is the spec's decision D15, RedrawAck in a wait log
entry 30). -/
def Obligations.WaitHoldsExecution : Prop :=
  ∀ s t : State, s.status = .run → s.keyWait = true → step s = .next t →
    t.pc = s.pc ∧ t.I = s.I ∧ SameMemory s t ∧ SameStack s t ∧ t.status = .run ∧
    (∀ p, t.pixelOn p = s.pixelOn p) ∧
    ((∀ rest, s.events ≠ .redrawAck :: rest) → t.redraw = s.redraw) ∧
    SameRegsBut [s.keyWaitReg] s t ∧
    ((∀ k rest, s.events ≠ .keyPress k :: rest) → SameRegsBut [] s t) ∧
    (t.keyWait = false → ∃ k rest, s.events = .keyPress k :: rest)

/-- n DelayTicks, or n SoundTicks, in a run lower that timer by n, never below zero, also while a wait is
pending, and change nothing else (R105, R106; separate ticks are the spec's decision D19). -/
def Obligations.TicksCountDownToZero : Prop :=
  ∀ (n : Nat) (s : State) (rest : List Event), s.status = .run →
    (s.events = List.replicate n .delayTick ++ rest →
      ∃ t : State, Sys2Proof.core.run n s = .next t ∧ t.DT.toNat = s.DT.toNat - n ∧
        t = { s with DT := t.DT, events := rest }) ∧
    (s.events = List.replicate n .soundTick ++ rest →
      ∃ t : State, Sys2Proof.core.run n s = .next t ∧ t.ST.toNat = s.ST.toNat - n ∧
        t = { s with ST := t.ST, events := rest })

/-- SetKeys: the held-key vector is replaced. RedrawAck: redraw is cleared. A KeyPress with no wait pending:
nothing happens. A KeyPress(k) in a wait: V[key_wait_reg] becomes k and the wait ends. Nothing else changes
(R107, R108, R109; the spec's decisions D15, D17, D30). -/
def Obligations.OtherHostEvents : Prop :=
  ∀ (s : State) (rest : List Event), s.status = .run →
    (∀ m, s.events = .setKeys m :: rest → step s = .next { s with events := rest, keys := m }) ∧
    (s.events = .redrawAck :: rest → step s = .next { s with events := rest, redraw := false }) ∧
    (∀ k, s.events = .keyPress k :: rest → s.keyWait = false → step s = .next { s with events := rest }) ∧
    (∀ k, s.events = .keyPress k :: rest → s.keyWait = true →
      ∃ t, step s = .next t ∧ (t.v s.keyWaitReg).toNat = k.toNat ∧ SameRegsBut [s.keyWaitReg] s t ∧
        t = { s with regs := t.regs, keyWait := false, events := rest })
end

