-- ==== Sys2Proof/Laws/Encoding.lean ====
section
/-! SUPPORT. The fields of a word built by the encoder, the masks of such a word, and a word put together from
its own fields. -/

namespace Sys2Proof

/-! ### Fields of a built word (R71) -/

section Fields
variable (f x y n : BitVec 4) (nn : Byte) (nnn : Addr12)

@[simp] theorem family_wordXYN : (wordXYN f x y n).family = f := by
  apply BitVec.eq_of_getLsbD_eq
  intro i hi
  have h1 : ¬(12 + i < 4) := by omega
  have h2 : ¬(12 + i - 4 < 4) := by omega
  have h3 : ¬(12 + i - 4 - 4 < 4) := by omega
  have h4 : 12 + i - 4 - 4 - 4 = i := by omega
  simp only [wordXYN, Word.family, BitVec.getLsbD_extractLsb', hi, decide_true, Bool.true_and,
    BitVec.getLsbD_append, h1, h2, h3, h4, if_false]

@[simp] theorem fieldX_wordXYN : (wordXYN f x y n).fieldX = x := by
  apply BitVec.eq_of_getLsbD_eq
  intro i hi
  have h1 : ¬(8 + i < 4) := by omega
  have h2 : ¬(8 + i - 4 < 4) := by omega
  have h3 : 8 + i - 4 - 4 = i := by omega
  simp only [wordXYN, Word.fieldX, BitVec.getLsbD_extractLsb', hi, decide_true, Bool.true_and,
    BitVec.getLsbD_append, h1, h2, h3, if_true, if_false]

@[simp] theorem fieldY_wordXYN : (wordXYN f x y n).fieldY = y := by
  apply BitVec.eq_of_getLsbD_eq
  intro i hi
  have h1 : ¬(4 + i < 4) := by omega
  have h2 : 4 + i - 4 = i := by omega
  simp only [wordXYN, Word.fieldY, BitVec.getLsbD_extractLsb', hi, decide_true, Bool.true_and,
    BitVec.getLsbD_append, h1, h2, if_true, if_false]

@[simp] theorem fieldN_wordXYN : (wordXYN f x y n).fieldN = n := by
  apply BitVec.eq_of_getLsbD_eq
  intro i hi
  simp only [wordXYN, Word.fieldN, BitVec.getLsbD_extractLsb', hi, decide_true, Bool.true_and,
    BitVec.getLsbD_append, Nat.zero_add, if_true]

@[simp] theorem family_wordXNN : (wordXNN f x nn).family = f := by
  apply BitVec.eq_of_getLsbD_eq
  intro i hi
  have h1 : ¬(12 + i < 8) := by omega
  have h2 : ¬(12 + i - 8 < 4) := by omega
  have h3 : 12 + i - 8 - 4 = i := by omega
  simp only [wordXNN, Word.family, BitVec.getLsbD_extractLsb', hi, decide_true, Bool.true_and,
    BitVec.getLsbD_append, h1, h2, h3, if_false]

@[simp] theorem fieldX_wordXNN : (wordXNN f x nn).fieldX = x := by
  apply BitVec.eq_of_getLsbD_eq
  intro i hi
  have h1 : ¬(8 + i < 8) := by omega
  have h2 : 8 + i - 8 = i := by omega
  simp only [wordXNN, Word.fieldX, BitVec.getLsbD_extractLsb', hi, decide_true, Bool.true_and,
    BitVec.getLsbD_append, h1, h2, if_true, if_false]

@[simp] theorem fieldNN_wordXNN : (wordXNN f x nn).fieldNN = nn := by
  apply BitVec.eq_of_getLsbD_eq
  intro i hi
  simp only [wordXNN, Word.fieldNN, BitVec.getLsbD_extractLsb', hi, decide_true, Bool.true_and,
    BitVec.getLsbD_append, Nat.zero_add, if_true]

@[simp] theorem family_wordNNN : (wordNNN f nnn).family = f := by
  apply BitVec.eq_of_getLsbD_eq
  intro i hi
  have h1 : ¬(12 + i < 12) := by omega
  have h2 : 12 + i - 12 = i := by omega
  simp only [wordNNN, Word.family, BitVec.getLsbD_extractLsb', hi, decide_true, Bool.true_and,
    BitVec.getLsbD_append, h1, h2, if_false]

@[simp] theorem fieldNNN_wordNNN : (wordNNN f nnn).fieldNNN = nnn := by
  apply BitVec.eq_of_getLsbD_eq
  intro i hi
  simp only [wordNNN, Word.fieldNNN, BitVec.getLsbD_extractLsb', hi, decide_true, Bool.true_and,
    BitVec.getLsbD_append, Nat.zero_add, if_true]

end Fields

/-! ### A word from its own fields -/

theorem wordNNN_fields (w : Word) : wordNNN w.family w.fieldNNN = w := by
  apply BitVec.eq_of_getLsbD_eq
  intro i hi
  simp only [wordNNN, Word.family, Word.fieldNNN, BitVec.getLsbD_append, BitVec.getLsbD_extractLsb']
  by_cases h : i < 12
  · simp [h]
  · have h2 : i - 12 < 4 := by omega
    have h3 : 12 + (i - 12) = i := by omega
    simp [h, h2, h3]

theorem wordXNN_fields (w : Word) : wordXNN w.family w.fieldX w.fieldNN = w := by
  apply BitVec.eq_of_getLsbD_eq
  intro i hi
  simp only [wordXNN, Word.family, Word.fieldX, Word.fieldNN, BitVec.getLsbD_append, BitVec.getLsbD_extractLsb']
  by_cases h : i < 8
  · simp [h]
  · by_cases h1 : i - 8 < 4
    · have h2 : 8 + (i - 8) = i := by omega
      simp [h, h1, h2]
    · have h2 : i - 8 - 4 < 4 := by omega
      have h3 : 12 + (i - 8 - 4) = i := by omega
      simp [h, h1, h2, h3]

theorem wordXYN_fields (w : Word) : wordXYN w.family w.fieldX w.fieldY w.fieldN = w := by
  apply BitVec.eq_of_getLsbD_eq
  intro i hi
  simp only [wordXYN, Word.family, Word.fieldX, Word.fieldY, Word.fieldN, BitVec.getLsbD_append,
    BitVec.getLsbD_extractLsb']
  by_cases h : i < 4
  · simp [h]
  · by_cases h1 : i - 4 < 4
    · have h2 : 4 + (i - 4) = i := by omega
      simp [h, h1, h2]
    · by_cases h3 : i - 4 - 4 < 4
      · have h2 : 8 + (i - 4 - 4) = i := by omega
        simp [h, h1, h2, h3]
      · have h2 : i - 4 - 4 - 4 < 4 := by omega
        have h4 : 12 + (i - 4 - 4 - 4) = i := by omega
        simp [h, h1, h2, h3, h4]

/-- The two bytes of a word, joined, are the word (R55). -/
@[simp] theorem ofBytes_bytes (w : Word) : Word.ofBytes w.hiByte w.loByte = w := by
  apply BitVec.eq_of_getLsbD_eq
  intro i hi
  simp only [Word.ofBytes, Word.hiByte, Word.loByte, BitVec.getLsbD_append, BitVec.getLsbD_extractLsb']
  by_cases h : i < 8
  · simp [h]
  · have h2 : i - 8 < 8 := by omega
    have h3 : 8 + (i - 8) = i := by omega
    simp [h, h2, h3]

/-! ### Masks of a built word -/

theorem mask_family_wordXYN (f x y n : BitVec 4) : wordXYN f x y n &&& 0xF000 = f ++ 0#4 ++ 0#4 ++ 0#4 := by
  have : (0xF000 : Word) = 0xF#4 ++ 0#4 ++ 0#4 ++ 0#4 := by decide
  rw [this, wordXYN, BitVec.and_append, BitVec.and_append, BitVec.and_append]
  have h : (0xF#4) = BitVec.allOnes 4 := by decide
  rw [h]
  simp only [BitVec.and_allOnes, BitVec.and_zero]

theorem mask_family_wordXNN (f x : BitVec 4) (nn : Byte) : wordXNN f x nn &&& 0xF000 = f ++ 0#4 ++ 0#8 := by
  have : (0xF000 : Word) = 0xF#4 ++ 0#4 ++ 0#8 := by decide
  rw [this, wordXNN, BitVec.and_append, BitVec.and_append]
  have h : (0xF#4) = BitVec.allOnes 4 := by decide
  rw [h]
  simp only [BitVec.and_allOnes, BitVec.and_zero]

theorem mask_family_wordNNN (f : BitVec 4) (nnn : Addr12) : wordNNN f nnn &&& 0xF000 = f ++ 0#12 := by
  have : (0xF000 : Word) = 0xF#4 ++ 0#12 := by decide
  rw [this, wordNNN, BitVec.and_append]
  have h : (0xF#4) = BitVec.allOnes 4 := by decide
  rw [h]
  simp only [BitVec.and_allOnes, BitVec.and_zero]

theorem mask_nibble_wordXYN (f x y n : BitVec 4) : wordXYN f x y n &&& 0xF00F = f ++ 0#4 ++ 0#4 ++ n := by
  have : (0xF00F : Word) = 0xF#4 ++ 0#4 ++ 0#4 ++ 0xF#4 := by decide
  rw [this, wordXYN, BitVec.and_append, BitVec.and_append, BitVec.and_append]
  have h : (0xF#4) = BitVec.allOnes 4 := by decide
  rw [h]
  simp only [BitVec.and_allOnes, BitVec.and_zero]

theorem mask_byte_wordXNN (f x : BitVec 4) (nn : Byte) : wordXNN f x nn &&& 0xF0FF = f ++ 0#4 ++ nn := by
  have : (0xF0FF : Word) = 0xF#4 ++ 0#4 ++ 0xFF#8 := by decide
  rw [this, wordXNN, BitVec.and_append, BitVec.and_append]
  have h : (0xF#4) = BitVec.allOnes 4 := by decide
  have h' : (0xFF#8) = BitVec.allOnes 8 := by decide
  rw [h, h']
  simp only [BitVec.and_allOnes, BitVec.and_zero]

end Sys2Proof
end

