-- ==== Sys2Proof/Laws/State.lean ====
section
/-! SUPPORT. One lemma per field per update of the state, and the register file's read after write. -/

namespace Sys2Proof.Machine

@[simp] theorem v_setV (s : State) (x y : Reg) (b : Byte) : (s.setV x b).v y = if y = x then b else s.v y := by
  unfold State.v State.setV
  by_cases h : y = x
  · simp [h]
  · have : x.toNat ≠ y.toNat := fun e => h (BitVec.eq_of_toNat_eq e.symm)
    simp [h, this]

/-! ### setV -/

@[simp] theorem setV_cfg (s : State) (x : Reg) (b : Byte) : (s.setV x b).cfg = s.cfg := rfl
@[simp] theorem setV_mem (s : State) (x : Reg) (b : Byte) : (s.setV x b).mem = s.mem := rfl
@[simp] theorem setV_I (s : State) (x : Reg) (b : Byte) : (s.setV x b).I = s.I := rfl
@[simp] theorem setV_pc (s : State) (x : Reg) (b : Byte) : (s.setV x b).pc = s.pc := rfl
@[simp] theorem setV_stack (s : State) (x : Reg) (b : Byte) : (s.setV x b).stack = s.stack := rfl
@[simp] theorem setV_sp (s : State) (x : Reg) (b : Byte) : (s.setV x b).sp = s.sp := rfl
@[simp] theorem setV_DT (s : State) (x : Reg) (b : Byte) : (s.setV x b).DT = s.DT := rfl
@[simp] theorem setV_ST (s : State) (x : Reg) (b : Byte) : (s.setV x b).ST = s.ST := rfl
@[simp] theorem setV_fb (s : State) (x : Reg) (b : Byte) : (s.setV x b).fb = s.fb := rfl
@[simp] theorem setV_redraw (s : State) (x : Reg) (b : Byte) : (s.setV x b).redraw = s.redraw := rfl
@[simp] theorem setV_keyWait (s : State) (x : Reg) (b : Byte) : (s.setV x b).keyWait = s.keyWait := rfl
@[simp] theorem setV_keyWaitReg (s : State) (x : Reg) (b : Byte) : (s.setV x b).keyWaitReg = s.keyWaitReg := rfl
@[simp] theorem setV_status (s : State) (x : Reg) (b : Byte) : (s.setV x b).status = s.status := rfl
@[simp] theorem setV_fault (s : State) (x : Reg) (b : Byte) : (s.setV x b).fault = s.fault := rfl
@[simp] theorem setV_keys (s : State) (x : Reg) (b : Byte) : (s.setV x b).keys = s.keys := rfl
@[simp] theorem setV_rand8 (s : State) (x : Reg) (b : Byte) : (s.setV x b).rand8 = s.rand8 := rfl
@[simp] theorem setV_errors (s : State) (x : Reg) (b : Byte) : (s.setV x b).errors = s.errors := rfl
@[simp] theorem setV_draws (s : State) (x : Reg) (b : Byte) : (s.setV x b).draws = s.draws := rfl
@[simp] theorem setV_events (s : State) (x : Reg) (b : Byte) : (s.setV x b).events = s.events := rfl

/-! ### advance -/

@[simp] theorem advance_cfg (s : State)  : (s.advance).cfg = s.cfg := rfl
@[simp] theorem advance_mem (s : State)  : (s.advance).mem = s.mem := rfl
@[simp] theorem advance_regs (s : State)  : (s.advance).regs = s.regs := rfl
@[simp] theorem advance_I (s : State)  : (s.advance).I = s.I := rfl
@[simp] theorem advance_pc (s : State)  : (s.advance).pc = s.pc + 2 := rfl
@[simp] theorem advance_stack (s : State)  : (s.advance).stack = s.stack := rfl
@[simp] theorem advance_sp (s : State)  : (s.advance).sp = s.sp := rfl
@[simp] theorem advance_DT (s : State)  : (s.advance).DT = s.DT := rfl
@[simp] theorem advance_ST (s : State)  : (s.advance).ST = s.ST := rfl
@[simp] theorem advance_fb (s : State)  : (s.advance).fb = s.fb := rfl
@[simp] theorem advance_redraw (s : State)  : (s.advance).redraw = s.redraw := rfl
@[simp] theorem advance_keyWait (s : State)  : (s.advance).keyWait = s.keyWait := rfl
@[simp] theorem advance_keyWaitReg (s : State)  : (s.advance).keyWaitReg = s.keyWaitReg := rfl
@[simp] theorem advance_status (s : State)  : (s.advance).status = s.status := rfl
@[simp] theorem advance_fault (s : State)  : (s.advance).fault = s.fault := rfl
@[simp] theorem advance_keys (s : State)  : (s.advance).keys = s.keys := rfl
@[simp] theorem advance_rand8 (s : State)  : (s.advance).rand8 = s.rand8 := rfl
@[simp] theorem advance_errors (s : State)  : (s.advance).errors = s.errors := rfl
@[simp] theorem advance_draws (s : State)  : (s.advance).draws = s.draws := rfl
@[simp] theorem advance_events (s : State)  : (s.advance).events = s.events := rfl

/-! ### jump -/

@[simp] theorem jump_cfg (s : State) (w : Word) : (s.jump w).cfg = s.cfg := rfl
@[simp] theorem jump_mem (s : State) (w : Word) : (s.jump w).mem = s.mem := rfl
@[simp] theorem jump_regs (s : State) (w : Word) : (s.jump w).regs = s.regs := rfl
@[simp] theorem jump_I (s : State) (w : Word) : (s.jump w).I = s.I := rfl
@[simp] theorem jump_pc (s : State) (w : Word) : (s.jump w).pc = w := rfl
@[simp] theorem jump_stack (s : State) (w : Word) : (s.jump w).stack = s.stack := rfl
@[simp] theorem jump_sp (s : State) (w : Word) : (s.jump w).sp = s.sp := rfl
@[simp] theorem jump_DT (s : State) (w : Word) : (s.jump w).DT = s.DT := rfl
@[simp] theorem jump_ST (s : State) (w : Word) : (s.jump w).ST = s.ST := rfl
@[simp] theorem jump_fb (s : State) (w : Word) : (s.jump w).fb = s.fb := rfl
@[simp] theorem jump_redraw (s : State) (w : Word) : (s.jump w).redraw = s.redraw := rfl
@[simp] theorem jump_keyWait (s : State) (w : Word) : (s.jump w).keyWait = s.keyWait := rfl
@[simp] theorem jump_keyWaitReg (s : State) (w : Word) : (s.jump w).keyWaitReg = s.keyWaitReg := rfl
@[simp] theorem jump_status (s : State) (w : Word) : (s.jump w).status = s.status := rfl
@[simp] theorem jump_fault (s : State) (w : Word) : (s.jump w).fault = s.fault := rfl
@[simp] theorem jump_keys (s : State) (w : Word) : (s.jump w).keys = s.keys := rfl
@[simp] theorem jump_rand8 (s : State) (w : Word) : (s.jump w).rand8 = s.rand8 := rfl
@[simp] theorem jump_errors (s : State) (w : Word) : (s.jump w).errors = s.errors := rfl
@[simp] theorem jump_draws (s : State) (w : Word) : (s.jump w).draws = s.draws := rfl
@[simp] theorem jump_events (s : State) (w : Word) : (s.jump w).events = s.events := rfl

/-! ### setByte -/

@[simp] theorem setByte_cfg (s : State) (a : Nat) (b : Byte) : (s.setByte a b).cfg = s.cfg := rfl
@[simp] theorem setByte_mem (s : State) (a : Nat) (b : Byte) : (s.setByte a b).mem = Memory.write s.cfg s.mem a b := rfl
@[simp] theorem setByte_regs (s : State) (a : Nat) (b : Byte) : (s.setByte a b).regs = s.regs := rfl
@[simp] theorem setByte_I (s : State) (a : Nat) (b : Byte) : (s.setByte a b).I = s.I := rfl
@[simp] theorem setByte_pc (s : State) (a : Nat) (b : Byte) : (s.setByte a b).pc = s.pc := rfl
@[simp] theorem setByte_stack (s : State) (a : Nat) (b : Byte) : (s.setByte a b).stack = s.stack := rfl
@[simp] theorem setByte_sp (s : State) (a : Nat) (b : Byte) : (s.setByte a b).sp = s.sp := rfl
@[simp] theorem setByte_DT (s : State) (a : Nat) (b : Byte) : (s.setByte a b).DT = s.DT := rfl
@[simp] theorem setByte_ST (s : State) (a : Nat) (b : Byte) : (s.setByte a b).ST = s.ST := rfl
@[simp] theorem setByte_fb (s : State) (a : Nat) (b : Byte) : (s.setByte a b).fb = s.fb := rfl
@[simp] theorem setByte_redraw (s : State) (a : Nat) (b : Byte) : (s.setByte a b).redraw = s.redraw := rfl
@[simp] theorem setByte_keyWait (s : State) (a : Nat) (b : Byte) : (s.setByte a b).keyWait = s.keyWait := rfl
@[simp] theorem setByte_keyWaitReg (s : State) (a : Nat) (b : Byte) : (s.setByte a b).keyWaitReg = s.keyWaitReg := rfl
@[simp] theorem setByte_status (s : State) (a : Nat) (b : Byte) : (s.setByte a b).status = s.status := rfl
@[simp] theorem setByte_fault (s : State) (a : Nat) (b : Byte) : (s.setByte a b).fault = s.fault := rfl
@[simp] theorem setByte_keys (s : State) (a : Nat) (b : Byte) : (s.setByte a b).keys = s.keys := rfl
@[simp] theorem setByte_rand8 (s : State) (a : Nat) (b : Byte) : (s.setByte a b).rand8 = s.rand8 := rfl
@[simp] theorem setByte_errors (s : State) (a : Nat) (b : Byte) : (s.setByte a b).errors = s.errors := rfl
@[simp] theorem setByte_draws (s : State) (a : Nat) (b : Byte) : (s.setByte a b).draws = s.draws := rfl
@[simp] theorem setByte_events (s : State) (a : Nat) (b : Byte) : (s.setByte a b).events = s.events := rfl

/-! ### push -/

@[simp] theorem push_cfg (s : State) (w : Word) : (s.push w).cfg = s.cfg := rfl
@[simp] theorem push_mem (s : State) (w : Word) : (s.push w).mem = s.mem := rfl
@[simp] theorem push_regs (s : State) (w : Word) : (s.push w).regs = s.regs := rfl
@[simp] theorem push_I (s : State) (w : Word) : (s.push w).I = s.I := rfl
@[simp] theorem push_pc (s : State) (w : Word) : (s.push w).pc = s.pc := rfl
@[simp] theorem push_stack (s : State) (w : Word) : (s.push w).stack = s.stack.setIfInBounds s.sp w := rfl
@[simp] theorem push_sp (s : State) (w : Word) : (s.push w).sp = s.sp + 1 := rfl
@[simp] theorem push_DT (s : State) (w : Word) : (s.push w).DT = s.DT := rfl
@[simp] theorem push_ST (s : State) (w : Word) : (s.push w).ST = s.ST := rfl
@[simp] theorem push_fb (s : State) (w : Word) : (s.push w).fb = s.fb := rfl
@[simp] theorem push_redraw (s : State) (w : Word) : (s.push w).redraw = s.redraw := rfl
@[simp] theorem push_keyWait (s : State) (w : Word) : (s.push w).keyWait = s.keyWait := rfl
@[simp] theorem push_keyWaitReg (s : State) (w : Word) : (s.push w).keyWaitReg = s.keyWaitReg := rfl
@[simp] theorem push_status (s : State) (w : Word) : (s.push w).status = s.status := rfl
@[simp] theorem push_fault (s : State) (w : Word) : (s.push w).fault = s.fault := rfl
@[simp] theorem push_keys (s : State) (w : Word) : (s.push w).keys = s.keys := rfl
@[simp] theorem push_rand8 (s : State) (w : Word) : (s.push w).rand8 = s.rand8 := rfl
@[simp] theorem push_errors (s : State) (w : Word) : (s.push w).errors = s.errors := rfl
@[simp] theorem push_draws (s : State) (w : Word) : (s.push w).draws = s.draws := rfl
@[simp] theorem push_events (s : State) (w : Word) : (s.push w).events = s.events := rfl

/-! ### popToPc -/

@[simp] theorem popToPc_cfg (s : State)  : (s.popToPc).cfg = s.cfg := rfl
@[simp] theorem popToPc_mem (s : State)  : (s.popToPc).mem = s.mem := rfl
@[simp] theorem popToPc_regs (s : State)  : (s.popToPc).regs = s.regs := rfl
@[simp] theorem popToPc_I (s : State)  : (s.popToPc).I = s.I := rfl
@[simp] theorem popToPc_pc (s : State)  : (s.popToPc).pc = s.slot (s.sp - 1) := rfl
@[simp] theorem popToPc_stack (s : State)  : (s.popToPc).stack = s.stack := rfl
@[simp] theorem popToPc_sp (s : State)  : (s.popToPc).sp = s.sp - 1 := rfl
@[simp] theorem popToPc_DT (s : State)  : (s.popToPc).DT = s.DT := rfl
@[simp] theorem popToPc_ST (s : State)  : (s.popToPc).ST = s.ST := rfl
@[simp] theorem popToPc_fb (s : State)  : (s.popToPc).fb = s.fb := rfl
@[simp] theorem popToPc_redraw (s : State)  : (s.popToPc).redraw = s.redraw := rfl
@[simp] theorem popToPc_keyWait (s : State)  : (s.popToPc).keyWait = s.keyWait := rfl
@[simp] theorem popToPc_keyWaitReg (s : State)  : (s.popToPc).keyWaitReg = s.keyWaitReg := rfl
@[simp] theorem popToPc_status (s : State)  : (s.popToPc).status = s.status := rfl
@[simp] theorem popToPc_fault (s : State)  : (s.popToPc).fault = s.fault := rfl
@[simp] theorem popToPc_keys (s : State)  : (s.popToPc).keys = s.keys := rfl
@[simp] theorem popToPc_rand8 (s : State)  : (s.popToPc).rand8 = s.rand8 := rfl
@[simp] theorem popToPc_errors (s : State)  : (s.popToPc).errors = s.errors := rfl
@[simp] theorem popToPc_draws (s : State)  : (s.popToPc).draws = s.draws := rfl
@[simp] theorem popToPc_events (s : State)  : (s.popToPc).events = s.events := rfl

/-! ### Operations with a condition: the fields they leave alone -/

@[simp] theorem advance_v (s : State) (x : Reg) : s.advance.v x = s.v x := rfl
@[simp] theorem jump_v (s : State) (w : Word) (x : Reg) : (s.jump w).v x = s.v x := rfl
@[simp] theorem advance_byte (s : State) (a : Nat) : s.advance.byte a = s.byte a := rfl
@[simp] theorem setV_byte (s : State) (x : Reg) (b : Byte) (a : Nat) : (s.setV x b).byte a = s.byte a := rfl
@[simp] theorem setByte_v (s : State) (a : Nat) (b : Byte) (x : Reg) : (s.setByte a b).v x = s.v x := rfl
@[simp] theorem setV_slot (s : State) (x : Reg) (b : Byte) (k : Nat) : (s.setV x b).slot k = s.slot k := rfl
@[simp] theorem advance_slot (s : State) (k : Nat) : s.advance.slot k = s.slot k := rfl
@[simp] theorem setByte_slot (s : State) (a : Nat) (b : Byte) (k : Nat) : (s.setByte a b).slot k = s.slot k := rfl

/-- A skip is a jump over one word, or nothing (R104). -/
theorem skipIf_eq (s : State) (c : Bool) : s.skipIf c = { s with pc := if c then s.pc + 2 else s.pc } := by
  cases c <;> rfl

/-- The logic operations' flag reset is a write of VF, or nothing (R145). -/
theorem resetFlagOnLogic_eq (s : State) :
    s.resetFlagOnLogic = s ∨ s.resetFlagOnLogic = s.setV VF 0 := by
  unfold State.resetFlagOnLogic; split <;> simp

/-- The index overflow flag is a write of VF, or nothing (R171). -/
theorem flagIndexOverflow_eq (s : State) :
    s.flagIndexOverflow = s ∨ s.flagIndexOverflow = s.setV VF 1 := by
  unfold State.flagIndexOverflow; split <;> simp

/-- A register after the logic operations' flag reset (R145). -/
theorem resetFlagOnLogic_v (s : State) (r : Reg) :
    s.resetFlagOnLogic.v r = if s.cfg.resetFlagOnLogicOps = true ∧ r = VF then 0 else s.v r := by
  unfold State.resetFlagOnLogic
  cases s.cfg.resetFlagOnLogicOps
  · simp
  · simp only [if_true, true_and, v_setV]

/-- A register after the index overflow flag (R171). -/
theorem flagIndexOverflow_v (s : State) (r : Reg) :
    s.flagIndexOverflow.v r =
      if (s.cfg.indexOverflowSetsVf = true ∧ s.I.toNat > 0xFFF) ∧ r = VF then 1 else s.v r := by
  unfold State.flagIndexOverflow
  by_cases h : s.cfg.indexOverflowSetsVf = true ∧ s.I.toNat > 0xFFF
  · rw [if_pos (by simp [h]), v_setV]; simp only [h, and_self, true_and]
  · rw [if_neg (by simpa using h), if_neg (by tauto)]

/-- A register after a result and its flag: the flag is written last (R141). -/
@[simp] theorem setVWithFlag_v (s : State) (x r : Reg) (b : Byte) (f : Bool) :
    (s.setVWithFlag x b f).v r = if r = VF then flagByte f else if r = x then b else s.v r := by
  simp only [State.setVWithFlag, v_setV]

/-- The index advance changes I, or nothing (R174, R175). -/
theorem advanceIndex_eq (s : State) (n : Nat) :
    s.advanceIndex n = { s with I := if s.cfg.incrementIndexOnLoadStore then s.I + BitVec.ofNat 16 n else s.I } := by
  unfold State.advanceIndex; split <;> rfl

end Sys2Proof.Machine
end

