-- ==== Sys2Proof/Laws/Memory.lean ====
section
/-! SUPPORT. The memory's laws: read after write, and that every operation keeps the canonical form. -/

namespace Sys2Proof.Machine

theorem lookup_insert (m : Memory) (a b : Nat) (v : Byte) :
    Memory.lookup (Memory.insert m a v) b = if a = b then some v else Memory.lookup m b := by
  induction m with
  | nil => simp [Memory.insert, Memory.lookup]
  | cons p m ih =>
    obtain ⟨c, w⟩ := p
    simp only [Memory.insert]
    split
    · simp [Memory.lookup]
    · split
      · subst a; simp only [Memory.lookup]; split <;> rfl
      · simp only [Memory.lookup, ih]; split <;> split <;> simp_all

theorem lookup_erase (m : Memory) (a b : Nat) :
    Memory.lookup (Memory.erase m a) b = if a = b then none else Memory.lookup m b := by
  induction m with
  | nil => simp [Memory.erase, Memory.lookup]
  | cons p m ih =>
    obtain ⟨c, w⟩ := p
    unfold Memory.erase at ih ⊢
    by_cases h : c = a
    · subst h
      simp only [bne_self_eq_false, Bool.false_eq_true, not_false_eq_true, List.filter_cons_of_neg, ih, Memory.lookup]
      split <;> rfl
    · rw [List.filter_cons_of_pos (by simpa using h)]
      simp only [Memory.lookup, ih]
      split <;> split <;> simp_all

/-- A read after a write (R58). -/
theorem read_write (c : Config) (m : Memory) (a b : Nat) (v : Byte) :
    Memory.read c (Memory.write c m a v) b = if b = a then v else Memory.read c m b := by
  unfold Memory.read Memory.write
  split
  · rw [lookup_erase m a b]
    by_cases e : b = a
    · subst e; simp_all
    · simp [e, Ne.symm e]
  · rw [lookup_insert]
    by_cases e : b = a
    · subst e; simp
    · simp [e, Ne.symm e]

theorem mem_insert {m : Memory} {a : Nat} {v : Byte} {p : Host.Cell} (h : p ∈ Memory.insert m a v) :
    p = (a, v) ∨ p ∈ m := by
  induction m with
  | nil => exact .inl (by simpa [Memory.insert] using h)
  | cons q m ih =>
    obtain ⟨b, w⟩ := q
    simp only [Memory.insert] at h
    split at h
    · simpa using h
    · split at h
      · rcases List.mem_cons.1 h with rfl | h
        · exact .inl rfl
        · exact .inr (List.mem_cons_of_mem _ h)
      · rcases List.mem_cons.1 h with rfl | h
        · exact .inr (by simp)
        · exact (ih h).imp_right (List.mem_cons_of_mem _)

theorem mem_erase {m : Memory} {a : Nat} {p : Host.Cell} (h : p ∈ Memory.erase m a) : p ∈ m :=
  (List.mem_filter.1 h).1

theorem insert_sorted (m : Memory) (a : Nat) (v : Byte) (h : m.Pairwise (fun p q => p.1 < q.1)) :
    (Memory.insert m a v).Pairwise (fun p q => p.1 < q.1) := by
  induction m with
  | nil => simp [Memory.insert]
  | cons q m ih =>
    obtain ⟨b, w⟩ := q
    have hq := List.pairwise_cons.1 h
    simp only [Memory.insert]
    split
    · rename_i hlt
      refine List.pairwise_cons.2 ⟨fun p hp => ?_, h⟩
      rcases List.mem_cons.1 hp with rfl | hp
      · exact hlt
      · exact Nat.lt_trans hlt (hq.1 p hp)
    · split
      · rename_i e; subst e; exact List.pairwise_cons.2 ⟨hq.1, hq.2⟩
      · rename_i hge hne
        refine List.pairwise_cons.2 ⟨fun p hp => ?_, ih hq.2⟩
        rcases mem_insert hp with rfl | hp
        · show b < a; omega
        · exact hq.1 p hp

theorem erase_sorted (m : Memory) (a : Nat) (h : m.Pairwise (fun p q => p.1 < q.1)) :
    (Memory.erase m a).Pairwise (fun p q => p.1 < q.1) := h.filter _

/-- Every write inside the address space keeps the canonical form. -/
theorem write_wf (c : Config) (m : Memory) (a : Nat) (v : Byte) (h : Memory.wf c m) (ha : a < 0x1000) :
    Memory.wf c (Memory.write c m a v) := by
  unfold Memory.write
  split
  · exact ⟨erase_sorted m a h.1, fun p hp => h.2 p (mem_erase hp)⟩
  · refine ⟨insert_sorted m a v h.1, fun p hp => ?_⟩
    rcases mem_insert hp with rfl | hp
    · exact ⟨ha, ‹_›⟩
    · exact h.2 p hp

/-- The memory after reset is canonical: it lists nothing. -/
theorem reset_wf : Memory.wf State.reset.cfg State.reset.mem := by simp [State.reset, Memory.wf]

/-- The byte at an address after one byte was written. -/
@[simp] theorem byte_setByte (s : State) (a b : Nat) (v : Byte) :
    (s.setByte a v).byte b = if b = a then v else s.byte b :=
  read_write s.cfg s.mem a b v

theorem setByte_wf (s : State) (a : Nat) (v : Byte) (h : Memory.wf s.cfg s.mem) (ha : a < 0x1000) :
    Memory.wf (s.setByte a v).cfg (s.setByte a v).mem :=
  write_wf s.cfg s.mem a v h ha

end Sys2Proof.Machine
end

