-- ==== Sys2Proof/Laws/Ops.lean ====
section
/-! SUPPORT. What each shared operation can do, said once. -/

namespace Sys2Proof.Machine

/-! ### Access ranges (R52, R253) -/

/-- A range is inside memory exactly when no address is out of range. -/
theorem firstOutOfRange_eq_none_iff (base n : Nat) :
    firstOutOfRange base n = none ↔ n = 0 ∨ base + n ≤ 0x1000 := by
  simp only [firstOutOfRange, List.find?_eq_none, List.mem_map, List.mem_range]
  constructor
  · intro h
    by_cases hn : n = 0
    · exact .inl hn
    · have := h (base + (n - 1)) ⟨n - 1, by omega, rfl⟩
      simp at this
      omega
  · rintro h _ ⟨k, hk, rfl⟩
    simp
    omega

/-- The recorded address is the lowest of the range above 0xFFF: the base, or 0x1000 when the range begins
inside memory. -/
theorem firstOutOfRange_eq_some (base n : Nat) (hn : 0 < n) (h : 0x1000 < base + n) :
    firstOutOfRange base n = some (max base 0x1000) := by
  unfold firstOutOfRange
  rw [List.find?_eq_some_iff_getElem]
  refine ⟨by simp, max base 0x1000 - base, by simp; omega, by simp, fun j hj => ?_⟩
  simp only [List.getElem_map, List.getElem_range]
  simp
  omega

/-! ### Errors (R256, R257) -/

/-- Raising an error is a fatal entry or an ignored stack error, and which one it is. -/
theorem raise_cases (k : FaultKind) (info : Nat) (s t : State) (h : raise k info s = .next t) :
    ((k.isStackError = true → s.cfg.stackErrorMode = .fatal) ∧
      t = { s with status := .fault, fault := some ⟨k, s.pc, info⟩ }) ∨
    (k.isStackError = true ∧ s.cfg.stackErrorMode = .ignore ∧
      t = { s.advance with errors := s.errors ++ [k] }) := by
  cases k <;> cases hm : s.cfg.stackErrorMode <;>
    simp only [raise, hm, raiseFatal, ignoreError, Host.Outcome.next.injEq] at h <;> subst h <;>
    simp [FaultKind.isStackError]

/-- Address and key-index faults are fatal in both modes (R250). -/
theorem raise_fatal (k : FaultKind) (info : Nat) (s : State) (hk : k.isStackError = false) :
    raise k info s = .next { s with status := .fault, fault := some ⟨k, s.pc, info⟩ } := by
  cases k <;> first | rfl | simp [FaultKind.isStackError] at hk

/-- Raising an error always answers a next state. -/
theorem raise_next (k : FaultKind) (info : Nat) (s : State) : ∃ t, raise k info s = .next t := by
  unfold raise; split <;> exact ⟨_, rfl⟩

theorem withRange_in (s k : State) (base n : Nat) (h : n = 0 ∨ base + n ≤ 0x1000) :
    withRange s base n k = .next k := by
  simp [withRange, (firstOutOfRange_eq_none_iff base n).2 h]

theorem withRange_error (s k : State) (base n : Nat) (hn : 0 < n) (h : 0x1000 < base + n) :
    withRange s base n k = raise .addressFault (max base 0x1000) s := by
  simp [withRange, firstOutOfRange_eq_some base n hn h]

theorem withRange_out (s k : State) (base n : Nat) (hn : 0 < n) (h : 0x1000 < base + n) :
    withRange s base n k =
      .next { s with status := .fault, fault := some ⟨.addressFault, s.pc, max base 0x1000⟩ } := by
  rw [withRange_error s k base n hn h, raise_fatal _ _ _ rfl]

/-- A range-checked instruction either has its effect or takes an address fault. -/
theorem withRange_cases (s k t : State) (base n : Nat) (h : withRange s base n k = .next t) :
    ((n = 0 ∨ base + n ≤ 0x1000) ∧ t = k) ∨
    (0 < n ∧ 0x1000 < base + n ∧
      t = { s with status := .fault, fault := some ⟨.addressFault, s.pc, max base 0x1000⟩ }) := by
  by_cases hr : n = 0 ∨ base + n ≤ 0x1000
  · rw [withRange_in s k base n hr] at h
    exact .inl ⟨hr, by simpa using h.symm⟩
  · rw [withRange_out s k base n (by omega) (by omega)] at h
    exact .inr ⟨by omega, by omega, by simpa using h.symm⟩

/-! ### Runs of bytes (R57) -/

/-- Writing bytes changes memory only. -/
theorem writeBytes_eq (s : State) (base : Nat) (bs : List Byte) :
    s.writeBytes base bs = { s with mem := (s.writeBytes base bs).mem } := by
  induction bs generalizing s base with
  | nil => rfl
  | cons b bs ih => rw [State.writeBytes, ih]; rfl

/-- The byte at an address after a run of bytes was written. -/
theorem byte_writeBytes (s : State) (base a : Nat) (bs : List Byte) :
    (s.writeBytes base bs).byte a =
      if h : base ≤ a ∧ a < base + bs.length then bs[a - base] else s.byte a := by
  induction bs generalizing s base with
  | nil => simp [State.writeBytes]
  | cons b bs ih =>
    rw [State.writeBytes, ih, byte_setByte]
    by_cases h1 : a = base
    · subst h1; simp
    · by_cases h2 : base + 1 ≤ a ∧ a < base + 1 + bs.length
      · have h3 : base ≤ a ∧ a < base + (b :: bs).length := by simp; omega
        have h4 : a - base = a - (base + 1) + 1 := by omega
        rw [dif_pos h2, dif_pos h3]
        simp [h4]
      · have h3 : ¬(base ≤ a ∧ a < base + (b :: bs).length) := by simp; omega
        rw [dif_neg h2, dif_neg h3, if_neg h1]

theorem writeBytes_wf (s : State) (base : Nat) (bs : List Byte) (h : Memory.wf s.cfg s.mem)
    (hb : base + bs.length ≤ 0x1000) : Memory.wf (s.writeBytes base bs).cfg (s.writeBytes base bs).mem := by
  induction bs generalizing s base with
  | nil => exact h
  | cons b bs ih =>
    simp only [List.length_cons] at hb
    exact ih (s.setByte base b) (base + 1) (setByte_wf s base b h (by omega)) (by omega)

/-- Reading bytes gives the byte of each address. -/
@[simp] theorem length_readBytes (s : State) (base n : Nat) : (s.readBytes base n).length = n := by
  simp [State.readBytes]

@[simp] theorem getElem_readBytes (s : State) (base n k : Nat) (h : k < (s.readBytes base n).length) :
    (s.readBytes base n)[k] = s.byte (base + k) := by
  simp [State.readBytes]

/-! ### Storing and loading registers (R174, R175) -/

theorem storeRegs_succ (s : State) (base n : Nat) :
    s.storeRegs base (n + 1) =
      (s.storeRegs base n).setByte (base + n) ((s.storeRegs base n).v (BitVec.ofNat 4 n)) := by
  simp [State.storeRegs, List.range_succ]

/-- Storing registers changes memory only. -/
theorem storeRegs_eq (s : State) (base n : Nat) :
    s.storeRegs base n = { s with mem := (s.storeRegs base n).mem } := by
  induction n with
  | zero => rfl
  | succ n ih => rw [storeRegs_succ, ih]; rfl

theorem storeRegs_v (s : State) (base n : Nat) (x : Reg) : (s.storeRegs base n).v x = s.v x := by
  rw [storeRegs_eq]; rfl

/-- The byte at an address after registers were stored. -/
theorem byte_storeRegs (s : State) (base n a : Nat) :
    (s.storeRegs base n).byte a =
      if base ≤ a ∧ a < base + n then s.v (BitVec.ofNat 4 (a - base)) else s.byte a := by
  induction n with
  | zero => simp [State.storeRegs]
  | succ n ih =>
    rw [storeRegs_succ, byte_setByte, ih, storeRegs_v]
    by_cases h : a = base + n
    · subst h; simp
    · simp only [h, if_false]
      by_cases h2 : base ≤ a ∧ a < base + n
      · rw [if_pos h2, if_pos (by omega)]
      · rw [if_neg h2, if_neg (by omega)]

theorem storeRegs_wf (s : State) (base n : Nat) (h : Memory.wf s.cfg s.mem) (hb : n = 0 ∨ base + n ≤ 0x1000) :
    Memory.wf (s.storeRegs base n).cfg (s.storeRegs base n).mem := by
  induction n with
  | zero => exact h
  | succ n ih =>
    rw [storeRegs_succ]
    exact setByte_wf _ _ _ (ih (by omega)) (by omega)

theorem loadRegs_succ (s : State) (base n : Nat) :
    s.loadRegs base (n + 1) =
      (s.loadRegs base n).setV (BitVec.ofNat 4 n) ((s.loadRegs base n).byte (base + n)) := by
  simp [State.loadRegs, List.range_succ]

/-- Loading registers changes the register file only. -/
theorem loadRegs_eq (s : State) (base n : Nat) :
    s.loadRegs base n = { s with regs := (s.loadRegs base n).regs } := by
  induction n with
  | zero => rfl
  | succ n ih => rw [loadRegs_succ, ih]; rfl

/-- A register after registers 0 .. n-1 were loaded. -/
theorem loadRegs_v (s : State) (base n : Nat) (hn : n ≤ 16) (x : Reg) :
    (s.loadRegs base n).v x = if x.toNat < n then s.byte (base + x.toNat) else s.v x := by
  induction n with
  | zero => simp [State.loadRegs]
  | succ n ih =>
    have hb : ∀ a, (s.loadRegs base n).byte a = s.byte a := fun a => by rw [loadRegs_eq]; rfl
    rw [loadRegs_succ, v_setV, hb, ih (by omega)]
    by_cases h : x = BitVec.ofNat 4 n
    · subst h
      have : (BitVec.ofNat 4 n).toNat = n := by simp [BitVec.toNat_ofNat]; omega
      simp [this]
    · have : x.toNat ≠ n := fun e => h (by subst e; simp)
      simp only [h, if_false]
      by_cases h2 : x.toNat < n
      · rw [if_pos h2, if_pos (by omega)]
      · rw [if_neg h2, if_neg (by omega)]

/-! ### The call stack (R24) -/

/-- A slot after a push into a stack that has a free slot. -/
theorem slot_push (s : State) (w : Word) (k : Nat) (h : s.sp < 32) :
    (s.push w).slot k = if k = s.sp then w else s.slot k := by
  unfold State.push State.slot
  by_cases e : k = s.sp
  · subst e; simp [h]
  · simp [e, Ne.symm e]

/-! ### The pixel engine (R190, R192) -/

@[simp] theorem pixel_blank (p : Pixel) : Framebuffer.pixel Framebuffer.blank p = false := by
  simp [Framebuffer.pixel, Framebuffer.blank]

theorem pixel_toggle (fb : Framebuffer) (p q : Pixel) :
    Framebuffer.pixel (Framebuffer.toggle fb p) q =
      if q = p then !(Framebuffer.pixel fb p) else Framebuffer.pixel fb q := by
  obtain ⟨px, py⟩ := p
  obtain ⟨qx, qy⟩ := q
  unfold Framebuffer.toggle Framebuffer.pixel
  by_cases hx : qx = px
  · subst hx
    by_cases hy : qy = py
    · subst hy; simp
    · have : py.val ≠ qy.val := fun e => hy (Fin.ext e.symm)
      simp [hy, this]
  · have : px.val ≠ qx.val := fun e => hx (Fin.ext e.symm)
    simp [hx, this]

/-- Drawing pixels none of which comes twice: a pixel drawn is toggled, every other pixel is kept, and the
collision says whether some drawn pixel was on. -/
theorem drawPixels_spec (fb : Framebuffer) (ps : List Pixel) (hd : ps.Nodup) :
    (∀ q, Framebuffer.pixel (drawPixels fb ps).1 q = (Framebuffer.pixel fb q ^^ decide (q ∈ ps))) ∧
    ((drawPixels fb ps).2 = true ↔ ∃ q ∈ ps, Framebuffer.pixel fb q = true) := by
  suffices H : ∀ (ps : List Pixel) (acc : Framebuffer × Bool), ps.Nodup →
      (∀ q, Framebuffer.pixel (ps.foldl drawPixel acc).1 q = (Framebuffer.pixel acc.1 q ^^ decide (q ∈ ps))) ∧
      ((ps.foldl drawPixel acc).2 = true ↔ acc.2 = true ∨ ∃ q ∈ ps, Framebuffer.pixel acc.1 q = true) by
    simpa [drawPixels] using H ps (fb, false) hd
  intro ps
  induction ps with
  | nil => intro acc _; simp
  | cons p ps ih =>
    intro acc hd
    rw [List.nodup_cons] at hd
    obtain ⟨h1, h2⟩ := ih (drawPixel acc p) hd.2
    refine ⟨fun q => ?_, ?_⟩
    · rw [List.foldl_cons, h1]
      simp only [drawPixel, pixel_toggle, List.mem_cons]
      by_cases e : q = p
      · subst e; simp [hd.1]
      · simp [e]
    · rw [List.foldl_cons, h2]
      simp only [drawPixel, pixel_toggle, Bool.or_eq_true, List.mem_cons]
      constructor
      · rintro ((h | h) | ⟨q, hq, h⟩)
        · exact .inl h
        · exact .inr ⟨p, .inl rfl, h⟩
        · refine .inr ⟨q, .inr hq, ?_⟩
          have : q ≠ p := fun e => hd.1 (e ▸ hq)
          simpa [this] using h
      · rintro (h | ⟨q, rfl | hq, h⟩)
        · exact .inl (.inl h)
        · exact .inl (.inr h)
        · refine .inr ⟨q, hq, ?_⟩
          have : q ≠ p := fun e => hd.1 (e ▸ hq)
          simpa [this] using h

end Sys2Proof.Machine
end

