-- ==== Sys2Proof/Laws/Sprite.lean ====
section
/-! SUPPORT. Which pixels a sprite draws (spec/44_display.md R192 to R194), and that it draws none twice. -/

namespace Sys2Proof.Machine

/-- Where a sprite pixel is drawn, as numbers (R194). -/
theorem spriteTarget_eq_some (clip : Bool) (x0 y0 b r : Nat) (p : Pixel) :
    spriteTarget clip x0 y0 b r = some p ↔
      if clip then x0 + b = p.1.val ∧ y0 + r = p.2.val
      else (x0 + b) % 64 = p.1.val ∧ (y0 + r) % 32 = p.2.val := by
  obtain ⟨⟨px, hx⟩, ⟨py, hy⟩⟩ := p
  cases clip
  · simp [spriteTarget]
  · simp only [spriteTarget, if_true]
    split
    · simp
    · simp; omega

/-- A sprite bit is a binary digit of the row byte, bit 7 leftmost (R193). -/
theorem spriteBit_iff (row : Byte) (b : Nat) : spriteBit row b = true ↔ row.toNat / 2 ^ (7 - b) % 2 = 1 := by
  simp [spriteBit, BitVec.getLsbD, Nat.testBit_eq_decide_div_mod_eq]

theorem mem_rowPixels (clip : Bool) (x0 y0 r : Nat) (row : Byte) (p : Pixel) :
    p ∈ rowPixels clip x0 y0 r row ↔
      ∃ b < 8, spriteBit row b = true ∧ spriteTarget clip x0 y0 b r = some p := by
  simp only [rowPixels, List.mem_filterMap, List.mem_range]
  exact exists_congr fun b => and_congr_right fun _ => by split <;> simp_all

theorem mem_spritePixels (clip : Bool) (x0 y0 r : Nat) (rows : List Byte) (p : Pixel) :
    p ∈ spritePixels clip x0 y0 r rows ↔
      ∃ k, ∃ h : k < rows.length, p ∈ rowPixels clip x0 y0 (r + k) rows[k] := by
  induction rows generalizing r with
  | nil => simp [spritePixels]
  | cons row rows ih =>
    simp only [spritePixels, List.mem_append, ih]
    constructor
    · rintro (h | ⟨k, hk, h⟩)
      · exact ⟨0, by simp, by simpa using h⟩
      · exact ⟨k + 1, by simpa using hk, by simpa [Nat.add_assoc, Nat.add_comm 1 k] using h⟩
    · rintro ⟨_ | k, hk, h⟩
      · exact .inl (by simpa using h)
      · exact .inr ⟨k, by simpa using hk, by simpa [Nat.add_assoc, Nat.add_comm 1 k] using h⟩

/-- The pixels DXYN draws are exactly those its sprite covers (R192). -/
theorem mem_spriteOf (x y : Reg) (n : Nibble) (s : State) (p : Pixel) :
    p ∈ spriteOf x y n s ↔ SpriteCovers x y n s p := by
  simp only [spriteOf, mem_spritePixels, length_readBytes, getElem_readBytes, mem_rowPixels, spriteBit_iff,
    spriteTarget_eq_some, Nat.zero_add, SpriteCovers, startColumn, startRow]
  constructor
  · rintro ⟨r, hr, b, hb, h⟩; exact ⟨r, b, hr, hb, h⟩
  · rintro ⟨r, b, hr, hb, h⟩; exact ⟨r, hr, b, hb, h⟩

/-- One row draws no pixel twice: it is narrower than the screen. -/
theorem nodup_rowPixels (clip : Bool) (x0 y0 r : Nat) (row : Byte) : (rowPixels clip x0 y0 r row).Nodup := by
  unfold rowPixels
  refine List.pairwise_filterMap.2 ?_
  refine List.pairwise_lt_range.imp_of_mem fun {b b'} hb hb' hlt p hp p' hp' e => ?_
  rw [List.mem_range] at hb hb'
  subst e
  have h : spriteTarget clip x0 y0 b r = some p := by revert hp; split <;> simp
  have h' : spriteTarget clip x0 y0 b' r = some p := by revert hp'; split <;> simp
  rw [spriteTarget_eq_some] at h h'
  split at h <;> simp_all <;> omega

/-- Row numbers of drawn pixels tell the rows apart. -/
theorem row_of_mem_rowPixels (clip : Bool) (x0 y0 r : Nat) (row : Byte) (p : Pixel)
    (h : p ∈ rowPixels clip x0 y0 r row) : (y0 + r) % 32 = p.2.val := by
  obtain ⟨b, _, _, h⟩ := (mem_rowPixels clip x0 y0 r row p).1 h
  rw [spriteTarget_eq_some] at h
  have := p.2.isLt
  split at h <;> omega

/-- A sprite of at most 32 rows draws no pixel twice: it is smaller than the screen (R192). -/
theorem nodup_spritePixels (clip : Bool) (x0 y0 r : Nat) (rows : List Byte) (hl : rows.length ≤ 32) :
    (spritePixels clip x0 y0 r rows).Nodup := by
  induction rows generalizing r with
  | nil => simp [spritePixels]
  | cons row rows ih =>
    simp only [List.length_cons] at hl
    refine List.Nodup.append (nodup_rowPixels clip x0 y0 r row) (ih (r + 1) (by omega)) fun p hp hp' => ?_
    obtain ⟨k, hk, hp'⟩ := (mem_spritePixels clip x0 y0 (r + 1) rows p).1 hp'
    have h1 := row_of_mem_rowPixels clip x0 y0 r row p hp
    have h2 := row_of_mem_rowPixels clip x0 y0 (r + 1 + k) rows[k] p hp'
    omega

/-- DXYN draws no pixel twice. -/
theorem nodup_spriteOf (x y : Reg) (n : Nibble) (s : State) : (spriteOf x y n s).Nodup :=
  nodup_spritePixels _ _ _ _ _ (by have := n.isLt; simp; omega)

end Sys2Proof.Machine
end

