-- ==== Sys2Proof/Laws/Exec.lean ====
section
/-! SUPPORT. What exec can do, said once: an instruction has its effect, or raises an error of its own row. -/

namespace Sys2Proof.Machine

/-- The state an instruction leaves when it raises no error. -/
def effect (i : Instr) (s : State) : State :=
  match i with
  | .halt => { s with status := .halt }
  | .cls => { s.advance with fb := Framebuffer.blank, redraw := true }
  | .ret => s.advance.popToPc
  | .sys _ | .nop5 _ _ _ | .nop8 _ _ _ | .nop9 _ _ _ | .nopE _ _ | .nopF _ _ => s.advance
  | .jp nnn => s.advance.jump (target16 nnn)
  | .call nnn => (s.advance.push s.advance.pc).jump (target16 nnn)
  | .seImm x nn => s.advance.skipIf (s.v x == nn)
  | .sneImm x nn => s.advance.skipIf (s.v x != nn)
  | .seReg x y => s.advance.skipIf (s.v x == s.v y)
  | .sneReg x y => s.advance.skipIf (s.v x != s.v y)
  | .ldImm x nn => s.advance.setV x nn
  | .addImm x nn => s.advance.setV x (s.v x + nn)
  | .ldReg x y => s.advance.setV x (s.v y)
  | .or x y => (s.advance.setV x (s.v x ||| s.v y)).resetFlagOnLogic
  | .and x y => (s.advance.setV x (s.v x &&& s.v y)).resetFlagOnLogic
  | .xor x y => (s.advance.setV x (s.v x ^^^ s.v y)).resetFlagOnLogic
  | .addReg x y => s.advance.setVWithFlag x (s.v x + s.v y) (carryFlag (s.v x) (s.v y))
  | .sub x y => s.advance.setVWithFlag x (s.v x - s.v y) (noBorrowFlag (s.v x) (s.v y))
  | .subn x y => s.advance.setVWithFlag x (s.v y - s.v x) (noBorrowFlag (s.v y) (s.v x))
  | .shr x y => s.advance.setVWithFlag x (shiftSource s x y >>> 1) (lowBitFlag (shiftSource s x y))
  | .shl x y => s.advance.setVWithFlag x (shiftSource s x y <<< 1) (highBitFlag (shiftSource s x y))
  | .ldIndex nnn => { s.advance with I := target16 nnn }
  | .jpOffset nnn => s.advance.jump (target16 nnn + zext16 (s.v (jumpReg s.cfg nnn)))
  | .rnd x nn => s.advance.setV x (s.rand8 &&& nn)
  | .drw x y n =>
    { s.advance with fb := (drawPixels s.fb (spriteOf x y n s)).1, redraw := true }.setV VF
      (flagByte (drawPixels s.fb (spriteOf x y n s)).2)
  | .skp x => s.advance.skipIf (s.keyHeld (s.v x).toNat)
  | .sknp x => s.advance.skipIf (!(s.keyHeld (s.v x).toNat))
  | .ldVxDt x => s.advance.setV x s.DT
  | .ldVxK x => { s.advance with keyWait := true, keyWaitReg := x }
  | .ldDtVx x => { s.advance with DT := s.v x }
  | .ldStVx x => { s.advance with ST := s.v x }
  | .addIndex x => { s.advance with I := s.I + zext16 (s.v x) }.flagIndexOverflow
  | .ldFont x => { s.advance with I := zext16 (s.v x) * 5 }
  | .ldBcd x => s.advance.writeBytes s.I.toNat (decimalDigits (s.v x))
  | .storeRegs x => (s.advance.storeRegs s.I.toNat (x.toNat + 1)).advanceIndex (x.toNat + 1)
  | .loadRegs x => (s.advance.loadRegs s.I.toNat (x.toNat + 1)).advanceIndex (x.toNat + 1)

/-- When an instruction raises no error: a slot is free, or occupied; the key exists; the range is in memory. -/
def errorFree (i : Instr) (s : State) : Prop :=
  match i with
  | .ret => s.sp ≠ 0
  | .call _ => s.sp < s.cfg.stackDepth.slots
  | .skp x | .sknp x => (s.v x).toNat ≤ 15
  | .ldBcd _ => s.I.toNat + 3 ≤ 0x1000
  | .storeRegs x | .loadRegs x => s.I.toNat + (x.toNat + 1) ≤ 0x1000
  | .drw _ _ n => n.toNat = 0 ∨ s.I.toNat + n.toNat ≤ 0x1000
  | _ => True

/-- An instruction that raises no error answers its effect. -/
theorem exec_effect (i : Instr) (s : State) (h : errorFree i s) : exec i s = .next (effect i s) := by
  cases i <;> simp only [errorFree] at h <;> try rfl
  case ret => exact if_neg h
  case call nnn => exact if_neg (by simpa [State.stackFull] using h)
  case skp x => exact if_neg (by omega)
  case sknp x => exact if_neg (by omega)
  case drw x y n => exact withRange_in _ _ _ _ h
  case ldBcd x => exact withRange_in _ _ _ _ (.inr h)
  case storeRegs x => exact withRange_in _ _ _ _ (.inr h)
  case loadRegs x => exact withRange_in _ _ _ _ (.inr h)

/-- An instruction that raises an error raises a kind of its own row, before any effect. -/
theorem exec_error (i : Instr) (s : State) (h : ¬errorFree i s) :
    ∃ k info, mayRaise i k = true ∧ exec i s = raise k info s := by
  cases i <;> simp only [errorFree, not_true_eq_false] at h
  case ret => exact ⟨_, _, rfl, if_pos (not_not.1 h)⟩
  case call nnn => exact ⟨_, _, rfl, if_pos (by simpa [State.stackFull] using h)⟩
  case skp x => exact ⟨_, _, rfl, if_pos (by omega)⟩
  case sknp x => exact ⟨_, _, rfl, if_pos (by omega)⟩
  case drw x y n => exact ⟨.addressFault, _, rfl, withRange_error _ _ _ _ (by omega) (by omega)⟩
  case ldBcd x => exact ⟨.addressFault, _, rfl, withRange_error _ _ _ _ (by omega) (by omega)⟩
  case storeRegs x => exact ⟨.addressFault, _, rfl, withRange_error _ _ _ _ (by omega) (by omega)⟩
  case loadRegs x => exact ⟨.addressFault, _, rfl, withRange_error _ _ _ _ (by omega) (by omega)⟩

/-- What exec can answer: the effect, a fatal error, or an ignored stack error. -/
theorem exec_cases (i : Instr) (s t : State) (h : exec i s = .next t) :
    (errorFree i s ∧ t = effect i s) ∨
    (¬errorFree i s ∧ ∃ k info, mayRaise i k = true ∧
      (((k.isStackError = true → s.cfg.stackErrorMode = .fatal) ∧ t = faultState s k info) ∨
        (k.isStackError = true ∧ s.cfg.stackErrorMode = .ignore ∧ t = ignoredState s k))) := by
  by_cases he : errorFree i s
  · rw [exec_effect i s he] at h
    exact .inl ⟨he, by simpa using h.symm⟩
  · obtain ⟨k, info, hk, hr⟩ := exec_error i s he
    exact .inr ⟨he, k, info, hk, raise_cases k info s t (hr ▸ h)⟩

end Sys2Proof.Machine
end

