-- ==== Sys2Proof/Laws/PerInstr.lean ====
section
/-! SUPPORT. Statements made per instruction: the word of every instruction, under its row's mask, is its row's
match (spec/30_encoding.md R74: "a word w selects the row when w & mask = match"). -/

namespace Sys2Proof.Laws.TableRow

/-- The encoding of an instruction lies in its row of spec/opcode_table.json. -/
def Statement (i : Instr) : Prop := encode i &&& rowMask i = rowMatch i

theorem halt : Statement (.halt) := rfl

theorem cls : Statement (.cls) := rfl

theorem ret : Statement (.ret) := rfl

theorem sys (nnn : Addr12) : Statement (.sys nnn) := (mask_family_wordNNN _ _).trans rfl

theorem jp (nnn : Addr12) : Statement (.jp nnn) := (mask_family_wordNNN _ _).trans rfl

theorem call (nnn : Addr12) : Statement (.call nnn) := (mask_family_wordNNN _ _).trans rfl

theorem seImm (x : Reg) (nn : Byte) : Statement (.seImm x nn) := (mask_family_wordXNN _ _ _).trans rfl

theorem sneImm (x : Reg) (nn : Byte) : Statement (.sneImm x nn) := (mask_family_wordXNN _ _ _).trans rfl

theorem seReg (x y : Reg) : Statement (.seReg x y) := (mask_nibble_wordXYN _ _ _ _).trans rfl

theorem nop5 (x y : Reg) (n : Nibble) : Statement (.nop5 x y n) := (mask_family_wordXYN _ _ _ _).trans rfl

theorem ldImm (x : Reg) (nn : Byte) : Statement (.ldImm x nn) := (mask_family_wordXNN _ _ _).trans rfl

theorem addImm (x : Reg) (nn : Byte) : Statement (.addImm x nn) := (mask_family_wordXNN _ _ _).trans rfl

theorem ldReg (x y : Reg) : Statement (.ldReg x y) := (mask_nibble_wordXYN _ _ _ _).trans rfl

theorem or (x y : Reg) : Statement (.or x y) := (mask_nibble_wordXYN _ _ _ _).trans rfl

theorem and (x y : Reg) : Statement (.and x y) := (mask_nibble_wordXYN _ _ _ _).trans rfl

theorem xor (x y : Reg) : Statement (.xor x y) := (mask_nibble_wordXYN _ _ _ _).trans rfl

theorem addReg (x y : Reg) : Statement (.addReg x y) := (mask_nibble_wordXYN _ _ _ _).trans rfl

theorem sub (x y : Reg) : Statement (.sub x y) := (mask_nibble_wordXYN _ _ _ _).trans rfl

theorem shr (x y : Reg) : Statement (.shr x y) := (mask_nibble_wordXYN _ _ _ _).trans rfl

theorem subn (x y : Reg) : Statement (.subn x y) := (mask_nibble_wordXYN _ _ _ _).trans rfl

theorem shl (x y : Reg) : Statement (.shl x y) := (mask_nibble_wordXYN _ _ _ _).trans rfl

theorem nop8 (x y : Reg) (n : Nibble) : Statement (.nop8 x y n) := (mask_family_wordXYN _ _ _ _).trans rfl

theorem sneReg (x y : Reg) : Statement (.sneReg x y) := (mask_nibble_wordXYN _ _ _ _).trans rfl

theorem nop9 (x y : Reg) (n : Nibble) : Statement (.nop9 x y n) := (mask_family_wordXYN _ _ _ _).trans rfl

theorem ldIndex (nnn : Addr12) : Statement (.ldIndex nnn) := (mask_family_wordNNN _ _).trans rfl

theorem jpOffset (nnn : Addr12) : Statement (.jpOffset nnn) := (mask_family_wordNNN _ _).trans rfl

theorem rnd (x : Reg) (nn : Byte) : Statement (.rnd x nn) := (mask_family_wordXNN _ _ _).trans rfl

theorem drw (x y : Reg) (n : Nibble) : Statement (.drw x y n) := (mask_family_wordXYN _ _ _ _).trans rfl

theorem skp (x : Reg) : Statement (.skp x) := (mask_byte_wordXNN _ _ _).trans rfl

theorem sknp (x : Reg) : Statement (.sknp x) := (mask_byte_wordXNN _ _ _).trans rfl

theorem nopE (x : Reg) (nn : Byte) : Statement (.nopE x nn) := (mask_family_wordXNN _ _ _).trans rfl

theorem ldVxDt (x : Reg) : Statement (.ldVxDt x) := (mask_byte_wordXNN _ _ _).trans rfl

theorem ldVxK (x : Reg) : Statement (.ldVxK x) := (mask_byte_wordXNN _ _ _).trans rfl

theorem ldDtVx (x : Reg) : Statement (.ldDtVx x) := (mask_byte_wordXNN _ _ _).trans rfl

theorem ldStVx (x : Reg) : Statement (.ldStVx x) := (mask_byte_wordXNN _ _ _).trans rfl

theorem addIndex (x : Reg) : Statement (.addIndex x) := (mask_byte_wordXNN _ _ _).trans rfl

theorem ldFont (x : Reg) : Statement (.ldFont x) := (mask_byte_wordXNN _ _ _).trans rfl

theorem ldBcd (x : Reg) : Statement (.ldBcd x) := (mask_byte_wordXNN _ _ _).trans rfl

theorem storeRegs (x : Reg) : Statement (.storeRegs x) := (mask_byte_wordXNN _ _ _).trans rfl

theorem loadRegs (x : Reg) : Statement (.loadRegs x) := (mask_byte_wordXNN _ _ _).trans rfl

theorem nopF (x : Reg) (nn : Byte) : Statement (.nopF x nn) := (mask_family_wordXNN _ _ _).trans rfl

end Sys2Proof.Laws.TableRow
end

