-- ==== Sys2Proof/Tests/Slice0.lean ====
section
/-! SUPPORT. The model's own tests. Expected values come from spec/95_test_vectors.md (the ids S, T, F, A, M, D, K, E
in the comments) and from the rules' own examples; a `witness_` theorem shows a state and operands that meet all
hypotheses of the obligation it is named after. -/

namespace Sys2Proof.Tests

open Sys2Proof Sys2Proof.Machine

/-! ### Helpers -/

/-- Does a result answer a next state with a property? -/
def after (r : Result) (p : State → Bool) : Bool :=
  match r with
  | .next t => p t
  | _ => false

/-- Does the step that runs the word w from s (at s's pc) answer a next state with a property? -/
def runs (s : State) (w : Nat) (p : State → Bool) : Bool := after (step (s.withFetchWord 16 w)) p

/-- The start state of the vectors with some registers set. -/
def regs (rs : List (Reg × Byte)) : State := rs.foldl (fun s r => s.setV r.1 r.2) State.reset

/-- The start state with a configuration change. -/
def conf (f : Config → Config) (s : State) : State := { s with cfg := f s.cfg }

/-- The bytes from an address on. -/
def bytesAt (s : State) (a : Nat) (bs : List Byte) : Bool := s.readBytes a bs.length == bs

/-- Is the state a fault of a kind, at a pc, with an info? -/
def faulted (k : FaultKind) (p : Word) (info : Nat) (t : State) : Bool :=
  t.status == .fault && t.fault == some ⟨k, p, info⟩ && t.pc == p

/-- Are exactly these pixels of a column range and row on? -/
def columnsOn (t : State) (row : Fin 32) (cols : List (Fin 64)) : Bool :=
  (List.finRange 64).all fun c => t.pixelOn (c, row) == cols.contains c

/-! ### WellFormed refuses ill-formed terms -/

theorem test_wf_sys : Instr.wf (.sys 0x000) = false ∧ Instr.wf (.sys 0x0E0) = false ∧
    Instr.wf (.sys 0x0EE) = false ∧ Instr.wf (.sys 0x0E1) = true := by decide
theorem test_wf_nop5 : Instr.wf (.nop5 1 2 0) = false ∧ Instr.wf (.nop5 1 2 1) = true := by decide
theorem test_wf_nop8 : (([0, 1, 2, 3, 4, 5, 6, 7, 0xE] : List Nibble).all fun n => Instr.wf (.nop8 1 2 n)) = false ∧
    (([0, 1, 2, 3, 4, 5, 6, 7, 0xE] : List Nibble).any fun n => Instr.wf (.nop8 1 2 n)) = false ∧
    (([8, 9, 0xA, 0xB, 0xC, 0xD, 0xF] : List Nibble).all fun n => Instr.wf (.nop8 1 2 n)) = true := by decide
theorem test_wf_nop9 : Instr.wf (.nop9 1 2 0) = false ∧ Instr.wf (.nop9 1 2 0xF) = true := by decide
theorem test_wf_nopE : Instr.wf (.nopE 1 0x9E) = false ∧ Instr.wf (.nopE 1 0xA1) = false ∧
    Instr.wf (.nopE 1 0x9F) = true := by decide
theorem test_wf_nopF :
    (([0x07, 0x0A, 0x15, 0x18, 0x1E, 0x29, 0x33, 0x55, 0x65] : List Byte).any fun nn =>
      Instr.wf (.nopF 1 nn)) = false ∧ Instr.wf (.nopF 1 0x30) = true := by decide

/-! ### Every row's word, written out bit by bit from its encoding (30_encoding.md R74), decodes to its instruction -/

theorem test_decode_family0 :
    decodeWord 0b0000000000000000 = .halt ∧ decodeWord 0b0000000011100000 = .cls ∧
    decodeWord 0b0000000011101110 = .ret ∧ decodeWord 0b0000_0001_0010_0011 = .sys 0x123 := by decide
theorem test_decode_jumps_and_skips :
    decodeWord 0b0001_1010_1011_1100 = .jp 0xABC ∧ decodeWord 0b0010_1111_1111_1110 = .call 0xFFE ∧
    decodeWord 0b0011_1111_0000_0001 = .seImm 15 0x01 ∧ decodeWord 0b0100_0011_0010_1011 = .sneImm 3 0x2B ∧
    decodeWord 0b0101_0001_0010_0000 = .seReg 1 2 ∧ decodeWord 0b0101_0001_0010_0001 = .nop5 1 2 1 ∧
    decodeWord 0b1001_0001_0010_0000 = .sneReg 1 2 ∧ decodeWord 0b1001_0001_0010_1111 = .nop9 1 2 15 ∧
    decodeWord 0b1011_0011_1010_0000 = .jpOffset 0x3A0 := by decide
theorem test_decode_loads :
    decodeWord 0b0110_1010_1001_1100 = .ldImm 10 0x9C ∧ decodeWord 0b0111_0001_1111_1111 = .addImm 1 0xFF ∧
    decodeWord 0b1010_0010_0000_0000 = .ldIndex 0x200 ∧ decodeWord 0b1100_0011_0000_1111 = .rnd 3 0x0F ∧
    decodeWord 0b1101_0000_0001_1111 = .drw 0 1 15 := by decide
theorem test_decode_family8 :
    decodeWord 0b1000_0001_0010_0000 = .ldReg 1 2 ∧ decodeWord 0b1000_0001_0010_0001 = .or 1 2 ∧
    decodeWord 0b1000_0001_0010_0010 = .and 1 2 ∧ decodeWord 0b1000_0001_0010_0011 = .xor 1 2 ∧
    decodeWord 0b1000_0001_0010_0100 = .addReg 1 2 ∧ decodeWord 0b1000_0001_0010_0101 = .sub 1 2 ∧
    decodeWord 0b1000_0001_0010_0110 = .shr 1 2 ∧ decodeWord 0b1000_0001_0010_0111 = .subn 1 2 ∧
    decodeWord 0b1000_0001_0010_1110 = .shl 1 2 ∧ decodeWord 0b1000_0001_0010_1000 = .nop8 1 2 8 := by decide
theorem test_decode_familyE :
    decodeWord 0b1110_0001_1001_1110 = .skp 1 ∧ decodeWord 0b1110_0001_1010_0001 = .sknp 1 ∧
    decodeWord 0b1110_0001_1001_1111 = .nopE 1 0x9F := by decide
theorem test_decode_familyF :
    decodeWord 0b1111_0001_0000_0111 = .ldVxDt 1 ∧ decodeWord 0b1111_0001_0000_1010 = .ldVxK 1 ∧
    decodeWord 0b1111_0001_0001_0101 = .ldDtVx 1 ∧ decodeWord 0b1111_0001_0001_1000 = .ldStVx 1 ∧
    decodeWord 0b1111_0001_0001_1110 = .addIndex 1 ∧ decodeWord 0b1111_0001_0010_1001 = .ldFont 1 ∧
    decodeWord 0b1111_0001_0011_0011 = .ldBcd 1 ∧ decodeWord 0b1111_0001_0101_0101 = .storeRegs 1 ∧
    decodeWord 0b1111_0001_0110_0101 = .loadRegs 1 ∧ decodeWord 0b1111_0001_0011_0000 = .nopF 1 0x30 := by decide
/-- The bytes of a word stand high byte first (R55), and the table's numbering is the word's. -/
theorem test_decode_bytes : decode [0xA2, 0x34, 0x99] = .ok (.ldIndex 0x234, [0x99]) ∧
    decode [0xA2] = .error .tooFewBytes ∧ decodeTableWord 16 0xA234 = some (.ldIndex 0x234) := by decide

/-! ### The step and the host's events (T1 to T12) -/

theorem test_T1_halt : after (step State.reset) (fun t => t.status == .halt && t.pc == 0x200) = true := by decide
theorem test_T2_last_word : runs { State.reset with pc := 0xFFE } 0x1234 (fun t => t.pc == 0x234) = true := by decide
theorem test_T4_fetch_fault : after (step { State.reset with pc := 0xFFF })
    (faulted .addressFault 0xFFF 0x1000) = true := by decide
theorem test_F16_fetch_fault : after (step { State.reset with pc := 0x10FE })
    (faulted .addressFault 0x10FE 0x10FE) = true := by decide
theorem test_T7_delay_tick : after (step { State.reset with DT := 1, ST := 2, events := [.delayTick] })
    (fun t => t.DT == 0 && t.ST == 2) = true := by decide
theorem test_T8_frozen : after (step { State.reset with DT := 5, status := .halt, events := [.delayTick] })
    (fun t => t.DT == 5) = true := by decide
theorem test_T10_set_keys : after (step { State.reset with events := [.setKeys 0x0401] })
    (fun t => t.keyHeld 0 && t.keyHeld 0xA && !t.keyHeld 1) = true := by decide
theorem test_T11_redraw_ack : after (step { State.reset with redraw := true, events := [.redrawAck] })
    (fun t => !t.redraw) = true := by decide
theorem test_T12_sound : State.soundActive { State.reset with ST := 1 } = true ∧
    after (step { State.reset with ST := 1, events := [.soundTick] }) (fun t => !t.soundActive) = true := by decide
theorem test_S6_init : after (step (State.init [0xA2, 0x00] Config.reference))
    (fun t => t.I == 0x200 && t.pc == 0x202 && t.status == .run) = true := by decide
theorem test_load_error : load none Config.reference = .error .loadError := by rfl

/-! ### No-ops and termination -/

theorem test_halt : runs State.reset 0x0000 (fun t => t.status == .halt && t.pc == 0x200) = true := by decide
theorem test_sys : runs State.reset 0x0123 (fun t => t.pc == 0x202 && t.status == .run && t.sp == 0) = true := by
  decide
theorem test_nop5 : runs (regs [(1, 7), (2, 7)]) 0x5121 (fun t => t.pc == 0x202) = true := by decide
theorem test_nop8 : runs (regs [(1, 7), (15, 9)]) 0x812F (fun t => t.pc == 0x202 && t.v 1 == 7 && t.v 15 == 9) = true := by
  decide
theorem test_nop9 : runs (regs [(1, 7)]) 0x9121 (fun t => t.pc == 0x202) = true := by decide
theorem test_nopE : runs (regs [(1, 0xFF)]) 0xE19F (fun t => t.pc == 0x202 && t.status == .run) = true := by decide
theorem test_nopF : runs (regs [(1, 7)]) 0xF130 (fun t => t.pc == 0x202 && t.I == 0) = true := by decide

/-! ### Control transfer (F1 to F18) -/

theorem test_F1_jp : runs State.reset 0x1234 (fun t => t.pc == 0x234) = true := by decide
theorem test_F3_call : runs { State.reset with pc := 0x204 } 0x2210
    (fun t => t.slot 0 == 0x206 && t.sp == 1 && t.pc == 0x210) = true := by decide
theorem test_F4_call_overflow : runs { State.reset with pc := 0x300, sp := 16 } 0x2400
    (fun t => faulted .stackOverflow 0x300 16 t && t.sp == 16) = true := by decide
theorem test_F7_ret : runs { State.reset with sp := 1, stack := State.reset.stack.set 0 0x206 } 0x00EE
    (fun t => t.pc == 0x206 && t.sp == 0) = true := by decide
theorem test_S7_ret_underflow : runs State.reset 0x00EE (faulted .stackUnderflow 0x200 0) = true ∧
    runs (conf (fun c => { c with stackErrorMode := .ignore }) State.reset) 0x00EE
      (fun t => t.pc == 0x202 && t.status == .run && t.errorOut == some .stackUnderflow && t.sp == 0) = true := by
  decide
theorem test_F9_seImm : runs (regs [(3, 0x2A)]) 0x332A (fun t => t.pc == 0x204) = true ∧
    runs (regs [(3, 0x2A)]) 0x332B (fun t => t.pc == 0x202) = true := by decide
theorem test_F10_sneImm : runs (regs [(3, 0x2A)]) 0x432B (fun t => t.pc == 0x204) = true ∧
    runs (regs [(3, 0x2A)]) 0x432A (fun t => t.pc == 0x202) = true := by decide
theorem test_F12_F13_seReg : runs (regs [(1, 7), (2, 7)]) 0x5120 (fun t => t.pc == 0x204) = true ∧
    runs (regs [(1, 7), (2, 8)]) 0x5120 (fun t => t.pc == 0x202) = true := by decide
theorem test_F13_F14_sneReg : runs (regs [(1, 7), (2, 8)]) 0x9120 (fun t => t.pc == 0x204) = true ∧
    runs (regs [(1, 7)]) 0x9110 (fun t => t.pc == 0x202) = true := by decide
theorem test_F15_jpOffset : runs (regs [(0, 0x10), (3, 0x20)]) 0xB300 (fun t => t.pc == 0x310) = true ∧
    runs (conf (fun c => { c with jumpUsesVx := true }) (regs [(0, 0x10), (3, 0x20)])) 0xB300
      (fun t => t.pc == 0x320) = true := by decide
theorem test_F16_jpOffset : runs (regs [(0, 0xFF)]) 0xBFFF (fun t => t.pc == 0x10FE) = true := by decide

/-! ### Register file and ALU (A1 to A34) -/

theorem test_A1_ldImm : runs State.reset 0x6A9C (fun t => t.v 10 == 0x9C && t.v 15 == 0) = true := by decide
theorem test_A3_addImm : runs (regs [(1, 5), (15, 7)]) 0x71FF (fun t => t.v 1 == 4 && t.v 15 == 7) = true := by
  decide
theorem test_A5_addImm_vf : runs (regs [(15, 0xFE)]) 0x7F01 (fun t => t.v 15 == 0xFF) = true := by decide
theorem test_A6_ldReg : runs (regs [(2, 0x33)]) 0x8120 (fun t => t.v 1 == 0x33 && t.v 2 == 0x33) = true := by decide
theorem test_A7_or : runs (regs [(1, 0xC), (2, 0xA), (15, 7)]) 0x8121 (fun t => t.v 1 == 0xE && t.v 15 == 7) = true := by
  decide
theorem test_A10_or_vf : runs (regs [(15, 0xC), (2, 0xA)]) 0x8F21 (fun t => t.v 15 == 0xE) = true ∧
    runs (conf (fun c => { c with resetFlagOnLogicOps := true }) (regs [(15, 0xC), (2, 0xA)])) 0x8F21
      (fun t => t.v 15 == 0) = true := by decide
theorem test_A7_and : runs (regs [(1, 0xC), (2, 0xA), (15, 7)]) 0x8122 (fun t => t.v 1 == 8 && t.v 15 == 7) = true := by
  decide
theorem test_A8_xor : runs (conf (fun c => { c with resetFlagOnLogicOps := true })
    (regs [(1, 0xC), (2, 0xA), (15, 7)])) 0x8123 (fun t => t.v 1 == 6 && t.v 15 == 0) = true := by decide
theorem test_A12_addReg : runs (regs [(0, 0xFF), (1, 0xFF)]) 0x8014 (fun t => t.v 0 == 0xFE && t.v 15 == 1) = true := by
  decide
theorem test_A15_addReg_vf : runs (regs [(15, 0x10), (1, 0x20)]) 0x8F14 (fun t => t.v 15 == 0) = true := by decide
theorem test_S3_sub : runs (regs [(1, 0x10), (2, 0x20)]) 0x8125 (fun t => t.v 1 == 0xF0 && t.v 15 == 0) = true := by
  decide
theorem test_A18_sub_equal : runs (regs [(1, 5), (2, 5)]) 0x8125 (fun t => t.v 1 == 0 && t.v 15 == 1) = true := by
  decide
theorem test_A22_subn : runs (regs [(1, 0x20), (2, 0x10)]) 0x8127 (fun t => t.v 1 == 0xF0 && t.v 15 == 0) = true := by
  decide
theorem test_A23_subn_equal : runs (regs [(1, 0x33), (2, 0x33)]) 0x8127 (fun t => t.v 1 == 0 && t.v 15 == 1) = true := by
  decide
theorem test_S8_shr : runs (regs [(1, 5), (2, 0xC)]) 0x8126 (fun t => t.v 1 == 2 && t.v 15 == 1) = true ∧
    runs (conf (fun c => { c with shiftLegacy := true }) (regs [(1, 5), (2, 0xC)])) 0x8126
      (fun t => t.v 1 == 6 && t.v 15 == 0 && t.v 2 == 0xC) = true := by decide
theorem test_A26_shr_vf : runs (regs [(15, 0x81)]) 0x8FF6 (fun t => t.v 15 == 1) = true := by decide
theorem test_A29_shl : runs (regs [(1, 0x81), (2, 0x40)]) 0x812E (fun t => t.v 1 == 2 && t.v 15 == 1) = true ∧
    runs (conf (fun c => { c with shiftLegacy := true }) (regs [(1, 0x81), (2, 0x40)])) 0x812E
      (fun t => t.v 1 == 0x80 && t.v 15 == 0) = true := by decide
theorem test_A31_shl_vf : runs (regs [(15, 0x40)]) 0x8FFE (fun t => t.v 15 == 0) = true := by decide
theorem test_A32_rnd : after (step { (State.init [0xC3, 0x0F] Config.reference) with events := [.step 0xB7] })
    (fun t => t.v 3 == 0x07) = true := by decide
theorem test_A33_rnd_zero_mask : after (exec (.rnd 3 0x00) { State.reset with rand8 := 0xFF })
    (fun t => t.v 3 == 0) = true := by decide

/-! ### Index register and memory (M1 to M19) -/

theorem test_M1_ldIndex : runs State.reset 0xAFFF (fun t => t.I == 0xFFF) = true := by decide
theorem test_M2_addIndex : runs { regs [(2, 3)] with I := 0xFFE } 0xF21E (fun t => t.I == 0x1001 && t.v 15 == 1) = true := by
  decide
theorem test_M3_M6_addIndex : runs { regs [(2, 0x10), (15, 0x55)] with I := 0x100 } 0xF21E
      (fun t => t.I == 0x110 && t.v 15 == 0x55) = true ∧
    runs { regs [(0, 1)] with I := 0xFFFF } 0xF01E (fun t => t.I == 0 && t.v 15 == 0) = true := by decide
theorem test_M8_ldFont : runs (regs [(4, 0x0A)]) 0xF429 (fun t => t.I == 0x032) = true ∧
    runs (regs [(4, 0xFF)]) 0xF429 (fun t => t.I == 0x4FB) = true := by decide
theorem test_M10_ldBcd : runs { regs [(5, 156)] with I := 0xFFD } 0xF533 (fun t => bytesAt t 0xFFD [1, 5, 6]) = true := by
  decide
theorem test_M11_ldBcd_fault : runs { regs [(5, 156)] with I := 0xFFE } 0xF533
    (fun t => faulted .addressFault 0x200 0x1000 t && bytesAt t 0xFFE [0, 0]) = true := by decide
theorem test_M12_storeRegs : runs (conf (fun c => { c with incrementIndexOnLoadStore := true })
    { regs [(0, 1), (1, 2), (2, 3)] with I := 0x300 }) 0xF255
    (fun t => bytesAt t 0x300 [1, 2, 3, 0] && t.I == 0x303) = true := by decide
theorem test_M15_storeRegs_fault : runs { regs [(0, 1)] with I := 0xFFE } 0xF255
    (fun t => faulted .addressFault 0x200 0x1000 t && bytesAt t 0xFFE [0, 0] && t.I == 0xFFE) = true := by decide
theorem test_M16_loadRegs : runs ({ State.reset with I := 0x300 }.writeBytes 0x300 [1, 5, 6, 7]) 0xF265
    (fun t => t.v 0 == 1 && t.v 1 == 5 && t.v 2 == 6 && t.v 3 == 0 && t.I == 0x300) = true := by decide
theorem test_M18_loadRegs_font : runs State.reset 0xF065 (fun t => t.v 0 == 0xF0) = true := by decide
/-- Writing what an unlisted address reads as removes the cell: equal memories are equal data. -/
theorem test_memory_canonical : ({ State.reset with pc := 0 }.writeBytes 0x300 [1, 2]).mem = [(0x300, 1), (0x301, 2)] ∧
    (({ State.reset with pc := 0 }.writeBytes 0x300 [1, 2]).writeBytes 0x300 [0]).mem = [(0x301, 2)] ∧
    (State.reset.writeBytes 0 [0xF0]).mem = [] := by decide

/-! ### Framebuffer (D1 to D11) -/

theorem test_D1_cls : runs { State.reset with fb := Framebuffer.toggle State.reset.fb (63, 31) } 0x00E0
    (fun t => t.fb == State.reset.fb && t.redraw) = true := by decide
theorem test_S4_D5_drw : runs ({ regs [(0, 10), (1, 5)] with I := 0x300 }.writeBytes 0x300 [0xF0]) 0xD011
      (fun t => columnsOn t 5 [10, 11, 12, 13] && t.v 15 == 0 && t.redraw) = true ∧
    runs ({ State.reset with I := 0x300, fb := Framebuffer.toggle State.reset.fb (0, 0) }.writeBytes 0x300 [0xC0])
      0xD011 (fun t => columnsOn t 0 [1] && t.v 15 == 1) = true := by decide
theorem test_P3_drw_clip_and_wrap : runs ({ regs [(0, 62), (1, 31)] with I := 0x300 }.writeBytes 0x300 [0xC3, 0x81]) 0xD012
      (fun t => columnsOn t 31 [62, 63] && columnsOn t 0 [] && t.v 15 == 0) = true ∧
    runs (conf (fun c => { c with clipSprites := false }) ({ regs [(0, 62), (1, 31)] with I := 0x300 }.writeBytes
      0x300 [0xC3, 0x81])) 0xD012
      (fun t => columnsOn t 31 [62, 63, 4, 5] && columnsOn t 0 [62, 5]) = true := by decide

/-! ### Keypad and timers -/

theorem test_skp : runs { regs [(5, 0xA)] with keys := 0x400 } 0xE59E (fun t => t.pc == 0x204) = true ∧
    runs (regs [(5, 0xA)]) 0xE59E (fun t => t.pc == 0x202) = true := by decide
theorem test_skp_fault : runs (regs [(5, 0x10)]) 0xE59E (faulted .keyIndexFault 0x200 0x10) = true := by decide
theorem test_sknp : runs (regs [(5, 0xA)]) 0xE5A1 (fun t => t.pc == 0x204) = true ∧
    runs { regs [(5, 0xA)] with keys := 0x400 } 0xE5A1 (fun t => t.pc == 0x202) = true := by decide
theorem test_ldVxDt : runs { State.reset with DT := 0x3C } 0xF307 (fun t => t.v 3 == 0x3C) = true := by decide
theorem test_ldDtVx : runs (regs [(3, 0x3C)]) 0xF315 (fun t => t.DT == 0x3C && t.ST == 0) = true := by decide
theorem test_ldStVx : runs (regs [(3, 5)]) 0xF318 (fun t => t.ST == 5 && t.DT == 0 && t.soundActive) = true := by decide
theorem test_ldVxK : runs State.reset 0xF20A (fun t => t.keyWait && t.keyWaitReg == 2 && t.pc == 0x202) = true := by
  decide
theorem test_ldVxK_keyPress : after (step { State.reset with keyWait := true, keyWaitReg := 2, events := [.keyPress 7] })
    (fun t => t.v 2 == 7 && !t.keyWait && t.keys == 0) = true := by decide

/-! ### Witnesses: states and operands that meet the hypotheses of the obligations -/

/-- A state in `ignore` mode. -/
def ignoring (s : State) : State := conf (fun c => { c with stackErrorMode := .ignore }) s

/-- A state with 32 stack slots. -/
def deep (s : State) : State := conf (fun c => { c with stackDepth := .d32 }) s

/-- A run waiting for a key with one return address, one byte stored and V2 to be written, and a coming event. -/
def waiting (e : List Event) : State :=
  { State.reset with
    pc := 0x302, mem := [(0x300, 0x12)], stack := State.reset.stack.set 0 0x206, sp := 1
    keyWait := true, keyWaitReg := 2, events := e }

theorem witness_DecodeOfEncodeIsIdentity : Instr.wf (.drw 0 1 15) = true ∧ Instr.wf (.sys 0xFFF) = true ∧
    Instr.wf (.nop8 1 2 0xF) = true ∧ Instr.wf (.nopF 15 0xFF) = true := by decide
theorem witness_EveryWordIsExactlyOneInstruction :
    Instr.wf (.drw 0 1 15) = true ∧ encode (.drw 0 1 15) = 0xD01F := by decide
theorem witness_StepRunsTheDecodedInstruction : ∃ (s : State) (i : Instr), s.status = .run ∧ s.keyWait = false ∧
    s.pc.toNat + 1 ≤ 0xFFF ∧ i.wf = true ∧
    decode [s.byte s.pc.toNat, s.byte (s.pc.toNat + 1)] = .ok (i, []) ∧ s.events = [] :=
  ⟨{ State.reset with pc := 0xFFE, mem := [(0xFFE, 0x12), (0xFFF, 0x34)] }, .jp 0x234, rfl, rfl, by decide, rfl, rfl, rfl⟩
theorem witness_StepRunsTheDecodedInstruction_event : ∃ (s : State) (i : Instr) (r : Byte) (rest : List Event),
    s.status = .run ∧ s.keyWait = false ∧ s.pc.toNat + 1 ≤ 0xFFF ∧ i.wf = true ∧
    decode [s.byte s.pc.toNat, s.byte (s.pc.toNat + 1)] = .ok (i, []) ∧ s.events = .step r :: rest :=
  ⟨{ State.reset with mem := [(0x200, 0xC3), (0x201, 0x0F)], events := [.step 0xB7, .delayTick] }, .rnd 3 0x0F, 0xB7,
    [.delayTick], rfl, rfl, by decide, rfl, rfl, rfl⟩
theorem witness_FetchAboveMemoryFaults : ∃ s u : State, (s.status = .run ∧ s.keyWait = false ∧
    s.pc.toNat + 1 > 0xFFF ∧ s.events = []) ∧ s.pc = 0xFFF ∧
    (u.status = .run ∧ u.keyWait = false ∧ u.pc.toNat + 1 > 0xFFF ∧ u.events = []) ∧ u.pc = 0xFFFF :=
  ⟨{ State.reset with pc := 0xFFF }, { State.reset with pc := 0xFFFF }, ⟨rfl, rfl, by decide, rfl⟩, rfl,
    ⟨rfl, rfl, by decide, rfl⟩, rfl⟩
theorem witness_FetchAboveMemoryFaults_event : ∃ (s : State) (r : Byte) (rest : List Event), s.status = .run ∧
    s.keyWait = false ∧ s.pc.toNat + 1 > 0xFFF ∧ s.events = .step r :: rest :=
  ⟨{ State.reset with pc := 0xFFF, events := [.step 1] }, 1, [], rfl, rfl, by decide, rfl⟩
theorem witness_StepNotEnabledHolds : (waiting []).keyWait = true ∧ (waiting []).events = [] ∧
    ({ State.reset with status := .halt, events := [.step 1] } : State).status ≠ .run := by decide
theorem witness_StepTakesOneEventKeepsConfig : ∃ s t : State, step s = .next t ∧ s.events = [.delayTick] :=
  ⟨waiting [.delayTick], _, rfl, rfl⟩
theorem witness_PlacedWordIsRunNext : 0xFFFF < 0x10000 ∧ 0x0000 < 0x10000 := by decide
theorem witness_HaltOnlyAtTheZeroWord : ∃ s t : State, s.status = .run ∧ step s = .next t ∧ t.status = .halt :=
  ⟨State.reset, _, rfl, rfl, rfl⟩
theorem witness_EndedRunIsFinal : ∃ s t : State, s.ended ∧ step s = .next t ∧
    ∀ m rest, s.events ≠ .setKeys m :: rest :=
  ⟨{ State.reset with status := .halt, DT := 5, events := [.delayTick] }, _, .inl rfl, rfl, by intro m rest h; cases h⟩
theorem witness_EndedRunIsFinal_setKeys : ∃ s t : State, s.ended ∧ step s = .next t ∧ s.events = [.setKeys 1] :=
  ⟨{ State.reset with status := .fault, events := [.setKeys 1] }, _, .inr rfl, rfl, rfl⟩
theorem witness_StepKeepsInvariant : ∃ s t : State, s.Inv ∧ step s = .next t ∧ s.mem ≠ [] ∧ s.sp = 1 :=
  ⟨waiting [.keyPress 7], _,
    { memory := by decide
      depth := by decide
      unusedSlots := by
        intro k hk
        have h16 : 16 ≤ k := hk
        have : k ≠ 0 := by omega
        simp only [State.slot, waiting, State.reset]
        by_cases h : k < 32
        · rw [Vector.getElem?_eq_getElem h]; simp [this.symm]
        · rw [Vector.getElem?_eq_none (by omega)]; rfl
      record := by decide
      precise := by intro f hf; cases hf
      waiting := fun _ => rfl
      reported := by intro k hk; cases hk },
    rfl, by decide, rfl⟩
theorem witness_FaultsArePreciseAndNamed : ∃ (i : Instr) (s t : State), s.status ≠ .fault ∧ exec i s = .next t ∧
    t.status = .fault := ⟨.ret, State.reset, _, by decide, rfl, rfl⟩
theorem witness_AccessAboveMemoryFaults : (0xFFE#16).toNat + 2 > 0xFFF ∧ (0xFFF#16).toNat + (1#4).toNat > 0xFFF ∧
    (0x1000#16).toNat + (0#4).toNat > 0xFFF ∧ (1#4 : Nibble) ≠ 0 ∧ (0x1000#16).toNat + (1#4).toNat - 1 > 0xFFF := by
  decide
theorem witness_KeyIndexAboveFifteenFaults : ((regs [(5, 0x10)]).v 5).toNat > 15 := by decide
theorem witness_CallOnFullStackIsReported : ∀ s ∈ [{ State.reset with sp := 16 }, ignoring { State.reset with sp := 16 },
    deep { State.reset with sp := 32 }], s.sp = s.cfg.stackDepth.slots := by decide
theorem witness_ReturnOnEmptyStackIsReported : (State.reset.sp = 0 ∧ State.reset.cfg.stackErrorMode = .fatal) ∧
    ((ignoring State.reset).sp = 0 ∧ (ignoring State.reset).cfg.stackErrorMode = .ignore) := by decide
theorem witness_StackErrorsLeaveThePreciseState : ∀ s ∈ [{ State.reset with sp := 16 }, deep { State.reset with sp := 32 }],
    (s.sp = s.cfg.stackDepth.slots ∧ s.cfg.stackErrorMode = .fatal) ∧
    ((ignoring s).sp = (ignoring s).cfg.stackDepth.slots ∧ (ignoring s).cfg.stackErrorMode = .ignore) := by decide
theorem witness_RegistersChangeOnlyByTheirWriters : ∃ (i : Instr) (s t : State) (r : Reg), exec i s = .next t ∧
    mayWriteReg s.cfg i r = false := ⟨.addReg 0 1, regs [(0, 0xFF), (1, 1)], _, 2, rfl, rfl⟩
theorem witness_StateChangesOnlyByItsWriters : ∃ (i : Instr) (s t : State), exec i s = .next t ∧
    mayWriteIndex s.cfg i = false ∧ mayWriteMemory i = false ∧ mayWriteStack i = false ∧ mayWriteScreen i = false ∧
    mayWriteTimers i = false ∧ mayWriteKeyWait i = false :=
  ⟨.addReg 0 1, regs [(0, 0xFF), (1, 1)], _, rfl, rfl, rfl, rfl, rfl, rfl, rfl⟩
theorem witness_InputsAreReadOnlyByTheirReaders : ∃ (i : Instr) (s t : State), exec i s = .next t ∧
    (∀ x nn, i ≠ .rnd x nn) ∧ (∀ x, i ≠ .skp x) ∧ (∀ x, i ≠ .sknp x) :=
  ⟨.addReg 0 1, regs [(0, 0xFF), (1, 1)], _, rfl, by simp, by simp, by simp⟩
theorem witness_ResidualWordsAreNoOps :
    ((0x001 : Addr12) ≠ 0x000 ∧ (0x001 : Addr12) ≠ 0x0E0 ∧ (0x001 : Addr12) ≠ 0x0EE) ∧
    (0xF : Nibble) ∈ [0x8, 0x9, 0xA, 0xB, 0xC, 0xD, 0xF] ∧ (0x9F : Byte) ∉ [0x9E, 0xA1] ∧
    (0x08 : Byte) ∉ [0x07, 0x0A, 0x15, 0x18, 0x1E, 0x29, 0x33, 0x55, 0x65] := by decide
theorem witness_FamiliesFiveAndNineResidualAreNoOps : (1 : Nibble) ≠ 0 ∧ (15 : Nibble) ≠ 0 := by decide
theorem witness_SkipComparesRegisters : (1 : Nibble) ≠ 0 ∧ (15 : Nibble) ≠ 0 := by decide
theorem witness_CallPushesTheReturnAddress : ∀ s ∈ [State.reset, { State.reset with sp := 15 },
    deep { State.reset with sp := 31 }], s.sp < s.cfg.stackDepth.slots := by decide
theorem witness_ReturnPopsTheTopSlot : ∀ s ∈ [{ State.reset with sp := 1 }, { State.reset with sp := 16 },
    deep { State.reset with sp := 32 }], 0 < s.sp := by decide
theorem witness_ReturnUndoesCall : ∃ s t u : State, s.sp < s.cfg.stackDepth.slots ∧ exec (.call 0x300) s = .next t ∧
    SameStack t u ∧ u.pc ≠ t.pc :=
  ⟨State.reset, _, { State.reset with sp := 1, stack := State.reset.stack.set 0 0x202, pc := 0x310 }, by decide, rfl,
    ⟨rfl, fun _ => rfl⟩, by decide⟩
theorem witness_LogicOpsAndTheirFlagReset :
    (State.reset.cfg.resetFlagOnLogicOps = false) ∧
    ((conf (fun c => { c with resetFlagOnLogicOps := true }) State.reset).cfg.resetFlagOnLogicOps = true) ∧
    (1 : Reg) ≠ VF := by decide
theorem witness_AddRegistersSetsCarry : (14 : Reg) ≠ VF := by decide
theorem witness_SubtractionsSetNotBorrow : (0 : Reg) ≠ VF := by decide
theorem witness_ShiftsMoveOneBitOut : ∃ (s u : State) (x y : Reg) (a b : Byte), x ≠ VF ∧
    (s.cfg.shiftLegacy = false ∧ a = if s.cfg.shiftLegacy then s.v y else s.v x) ∧
    (u.cfg.shiftLegacy = true ∧ b = if u.cfg.shiftLegacy then u.v y else u.v x) :=
  ⟨regs [(1, 5), (2, 0xC)], conf (fun c => { c with shiftLegacy := true }) (regs [(1, 5), (2, 0xC)]), 1, 2, 5, 0xC,
    by decide, by decide, by decide⟩
theorem witness_RandomByteIsMasked : ∃ (s : State) (x : Reg) (nn r : Byte) (rest : List Event), s.status = .run ∧
    s.keyWait = false ∧ s.pc.toNat + 1 ≤ 0xFFF ∧ s.events = .step r :: rest ∧
    decode [s.byte s.pc.toNat, s.byte (s.pc.toNat + 1)] = .ok (.rnd x nn, []) ∧ nn = 0 :=
  ⟨{ State.reset with mem := [(0x200, 0xC3)], events := [.step 0xB7] }, 3, 0, 0xB7, [], rfl, rfl, by decide, rfl, rfl,
    rfl⟩
theorem witness_BcdStoresThreeDigits : (0xFFD#16).toNat + 2 ≤ 0xFFF := by decide
theorem witness_StoreRegistersWritesTheBlock : (0xFF0#16).toNat + (15 : Reg).toNat ≤ 0xFFF ∧
    (15 : Reg).toNat ≤ (15 : Reg).toNat ∧ (0xFFF#16).toNat + (0 : Reg).toNat ≤ 0xFFF := by decide
theorem witness_LoadRegistersReadsTheBlock : (0xFF0#16).toNat + (15 : Reg).toNat ≤ 0xFFF ∧
    (0xFFF#16).toNat + (0 : Reg).toNat ≤ 0xFFF := by decide
theorem witness_StoreIsSeenByTheNextFetch : ∃ (s : State) (x : Reg), 1 ≤ x.toNat ∧ s.I = s.pc + 2 ∧
    s.I.toNat + x.toNat ≤ 0xFFF := ⟨{ State.reset with pc := 0xFFC, I := 0xFFE }, 1, by decide, rfl, by decide⟩
theorem witness_InitPlacesFontAndProgram : ∀ a ∈ [0, 79, 80, 0x1FF, 0x200, 0xFFF], a < 0x1000 := by decide
theorem witness_DrawTogglesTheCoveredPixels : ∃ (s : State) (x y : Reg) (n : Nibble) (p q : Pixel),
    s.I.toNat + n.toNat - 1 ≤ 0xFFF ∧ s.I.toNat + n.toNat = 0x1000 ∧ SpriteCovers x y n s p ∧
    s.pixelOn p = true ∧ ¬SpriteCovers x y n s q := by
  refine ⟨{ State.reset with I := 0xFFF, mem := [(0xFFF, 0x80)], fb := Framebuffer.toggle State.reset.fb (0, 0) },
    0, 1, 1, (0, 0), (0, 1), by decide, by decide, ⟨0, 0, by decide, by decide, by decide, by decide⟩, by decide, ?_⟩
  rintro ⟨r, b, hr, -, -, hp⟩
  have h1 : r < 1 := hr
  have h2 : (0 % 64 + b = 0 ∧ 0 % 32 + r = 1) := hp
  omega
theorem witness_DrawTogglesTheCoveredPixels_no_collision : ∃ (s : State) (x y : Reg) (n : Nibble), n = 0 ∧
    ¬∃ p, SpriteCovers x y n s p ∧ s.pixelOn p = true :=
  ⟨State.reset, 0, 1, 0, rfl, fun ⟨_, ⟨_, _, hr, _⟩, _⟩ => absurd hr (Nat.not_lt_zero _)⟩
theorem witness_DrawingTwiceRestoresTheScreen : ∃ (s t : State) (x y : Reg) (n : Nibble),
    s.I.toNat + n.toNat - 1 ≤ 0xFFF ∧ n ≠ 0 ∧ exec (.drw x y n) s = .next t ∧ t.v x = s.v x ∧ t.v y = s.v y :=
  ⟨{ regs [(0, 10), (1, 5)] with I := 0xFFF, mem := [(0xFFF, 0x80)] }, _, 0, 1, 1, by decide, by decide, rfl,
    by decide, by decide⟩
theorem witness_KeySkipsReadTheHeldKeys : ((regs [(5, 0xF)]).v 5).toNat ≤ 15 := by decide
theorem witness_KeyWaitEndsWithKeyPress : ∃ (s : State) (k : Nibble) (rest : List Event), s.status = .run ∧
    s.events = .keyPress k :: rest := ⟨{ State.reset with events := [.keyPress 15] }, 15, [], rfl, rfl⟩
theorem witness_WaitHoldsExecution : ∃ s t : State, s.status = .run ∧ s.keyWait = true ∧ step s = .next t ∧
    (∀ rest, s.events ≠ .redrawAck :: rest) ∧ t.keyWait = false :=
  ⟨waiting [.keyPress 7], _, rfl, rfl, rfl, fun _ h => (by cases h), rfl⟩
theorem witness_WaitHoldsExecution_no_keyPress : ∃ s t : State, s.status = .run ∧ s.keyWait = true ∧
    step s = .next t ∧ ∀ k rest, s.events ≠ .keyPress k :: rest :=
  ⟨waiting [.redrawAck], _, rfl, rfl, rfl, fun _ _ h => by cases h⟩
theorem witness_TicksCountDownToZero : ∃ (n : Nat) (s u : State), n > s.DT.toNat ∧ s.status = .run ∧ u.status = .run ∧
    s.events = List.replicate n .delayTick ++ [.redrawAck] ∧ u.events = List.replicate n .soundTick ++ [] :=
  ⟨2, { waiting [.delayTick, .delayTick, .redrawAck] with DT := 1 }, waiting [.soundTick, .soundTick], by decide, rfl, rfl,
    rfl, rfl⟩
theorem witness_OtherHostEvents : ∀ e ∈ [Event.setKeys 0xFFFF, .redrawAck, .keyPress 15],
    ({ State.reset with events := [e] } : State).status = .run ∧
    ({ State.reset with events := [e] } : State).keyWait = false := by decide
theorem witness_OtherHostEvents_wait : (waiting [.keyPress 15]).status = .run ∧
    (waiting [.keyPress 15]).events = [.keyPress 15] ∧ (waiting [.keyPress 15]).keyWait = true := by decide

end Sys2Proof.Tests
end

section
/-! PROOFS. What an instruction may write (spec/10_state.md R21, R37). -/

namespace Sys2Proof.Machine

/-! ### Operations with a condition, as updates of the fields they write -/

/-- The logic operations' flag reset writes the register file only (R145). -/
theorem resetFlagOnLogic_regs_only (s : State) :
    s.resetFlagOnLogic = { s with regs := s.resetFlagOnLogic.regs } := by
  rcases resetFlagOnLogic_eq s with h | h <;> rw [h]
  rfl

/-- The index overflow flag writes the register file only (R171). -/
theorem flagIndexOverflow_regs_only (s : State) :
    s.flagIndexOverflow = { s with regs := s.flagIndexOverflow.regs } := by
  rcases flagIndexOverflow_eq s with h | h <;> rw [h]
  rfl

/-! ### The frame of an instruction (R37) -/

/-- `s`, with the fields that instruction `i` may write taken from `t`: registers and pc always, status for
HALT, and every other field as the write columns of R37 say. -/
def writeFrom (i : Instr) (s t : State) : State :=
  { s with
    regs := t.regs
    pc := t.pc
    status := if i = .halt then t.status else s.status
    I := if mayWriteIndex s.cfg i then t.I else s.I
    mem := if mayWriteMemory i then t.mem else s.mem
    stack := if mayWriteStack i then t.stack else s.stack
    sp := if mayWriteStack i then t.sp else s.sp
    fb := if mayWriteScreen i then t.fb else s.fb
    redraw := if mayWriteScreen i then t.redraw else s.redraw
    DT := if mayWriteTimers i then t.DT else s.DT
    ST := if mayWriteTimers i then t.ST else s.ST
    keyWait := if mayWriteKeyWait i then t.keyWait else s.keyWait
    keyWaitReg := if mayWriteKeyWait i then t.keyWaitReg else s.keyWaitReg }

/-- The effect of an instruction is confined to the fields it may write (R37). -/
theorem effect_eq_writeFrom (i : Instr) (s : State) : effect i s = writeFrom i s (effect i s) := by
  cases i with
  | seImm x nn | sneImm x nn => simp only [effect, skipIf_eq]; rfl
  | seReg x y | sneReg x y => simp only [effect, skipIf_eq]; rfl
  | skp x | sknp x => simp only [effect, skipIf_eq]; rfl
  | or x y | and x y | xor x y => rw [effect, resetFlagOnLogic_regs_only]; rfl
  | addIndex x => rw [effect, flagIndexOverflow_regs_only]; rfl
  | ldBcd x => rw [effect, writeBytes_eq]; rfl
  | storeRegs x =>
    rw [effect, advanceIndex_eq, storeRegs_eq]
    cases hc : s.cfg.incrementIndexOnLoadStore <;> simp [writeFrom, mayWriteIndex, mayWriteMemory, hc]
  | loadRegs x =>
    rw [effect, advanceIndex_eq, loadRegs_eq]
    cases hc : s.cfg.incrementIndexOnLoadStore <;> simp [writeFrom, mayWriteIndex, hc]
  | _ => rfl

theorem effect_cfg (i : Instr) (s : State) : (effect i s).cfg = s.cfg :=
  (congrArg State.cfg (effect_eq_writeFrom i s) :)

theorem effect_fault (i : Instr) (s : State) : (effect i s).fault = s.fault :=
  (congrArg State.fault (effect_eq_writeFrom i s) :)

theorem effect_errors (i : Instr) (s : State) : (effect i s).errors = s.errors :=
  (congrArg State.errors (effect_eq_writeFrom i s) :)

theorem effect_status (i : Instr) (s : State) (hi : i ≠ .halt) : (effect i s).status = s.status :=
  (congrArg State.status (effect_eq_writeFrom i s)).trans (if_neg hi)

theorem effect_mem (i : Instr) (s : State) (hi : mayWriteMemory i = false) : (effect i s).mem = s.mem :=
  (congrArg State.mem (effect_eq_writeFrom i s)).trans (if_neg (by simp [hi]))

theorem effect_stack (i : Instr) (s : State) (hi : mayWriteStack i = false) : (effect i s).stack = s.stack :=
  (congrArg State.stack (effect_eq_writeFrom i s)).trans (if_neg (by simp [hi]))

theorem effect_sp (i : Instr) (s : State) (hi : mayWriteStack i = false) : (effect i s).sp = s.sp :=
  (congrArg State.sp (effect_eq_writeFrom i s)).trans (if_neg (by simp [hi]))

theorem writeFrom_self (i : Instr) (s : State) : writeFrom i s s = s := by
  simp only [writeFrom, ite_self]

/-- What an instruction answers is confined to the fields it may write, but for pc, the status, the fault record
and the `error` output of an error it takes (R37, R256, R257). -/
theorem exec_writes (i : Instr) (s t : State) (h : exec i s = .next t) :
    ∃ u st f e, t = { writeFrom i s u with status := st, fault := f, errors := e } := by
  rcases exec_cases i s t h with ⟨-, rfl⟩ | ⟨-, k, info, -, ⟨-, rfl⟩ | ⟨-, -, rfl⟩⟩
  · exact ⟨effect i s, _, s.fault, s.errors, effect_eq_writeFrom i s⟩
  · refine ⟨s, .fault, some ⟨k, s.pc, info⟩, s.errors, ?_⟩
    rw [writeFrom_self]; rfl
  · refine ⟨{ s with pc := s.pc + 2 }, s.status, s.fault, s.errors ++ [k], ?_⟩
    simp only [writeFrom, ite_self]; rfl

/-- Settles O22: the frame of R37, read off field by field. -/
theorem stateChangesOnlyByItsWriters : Obligations.StateChangesOnlyByItsWriters := by
  intro i s t h
  obtain ⟨u, st, f, e, rfl⟩ := exec_writes i s t h
  refine ⟨fun hi => ?_, fun hi a => ?_, fun hi => ⟨?_, fun k => ?_⟩, fun hi => ⟨fun p => ?_, ?_⟩,
    fun hi => ⟨?_, ?_⟩, fun hi => ⟨?_, ?_⟩, rfl, rfl, rfl, rfl, rfl⟩ <;>
  simp [writeFrom, hi, State.byte, State.slot, State.pixelOn]

/-! ### Registers (R21) -/

/-- The effect of an instruction leaves a register that it may not write. -/
theorem effect_v (i : Instr) (s : State) (r : Reg) (hr : mayWriteReg s.cfg i r = false) :
    (effect i s).v r = s.v r := by
  cases i with
  | ldImm x _ | addImm x _ | ldReg x _ | rnd x _ | ldVxDt x =>
    have hx : r ≠ x := by simpa [mayWriteReg] using hr
    simp [effect, hx]
  | or x y | and x y | xor x y =>
    obtain ⟨hx, hf⟩ : r ≠ x ∧ (s.cfg.resetFlagOnLogicOps = true → r ≠ VF) := by
      simpa [mayWriteReg] using hr
    rw [effect, resetFlagOnLogic_v, if_neg fun h => hf h.1 h.2]
    simp [hx]
  | addReg x y | sub x y | subn x y | shr x y | shl x y =>
    obtain ⟨hx, hf⟩ : r ≠ x ∧ r ≠ VF := by simpa [mayWriteReg] using hr
    simp [effect, hx, hf]
  | drw x y n =>
    have hf : r ≠ VF := by simpa [mayWriteReg] using hr
    rw [effect, v_setV, if_neg hf]
    rfl
  | addIndex x =>
    have hf : s.cfg.indexOverflowSetsVf = true → r ≠ VF := by simpa [mayWriteReg] using hr
    rw [effect, flagIndexOverflow_v, if_neg fun h => hf h.1.1 h.2]
    rfl
  | loadRegs x =>
    have hx : ¬ r.toNat < x.toNat + 1 := by simpa [mayWriteReg, Nat.lt_succ_iff] using hr
    rw [effect, advanceIndex_eq]
    exact (loadRegs_v _ _ _ (by omega) r).trans (if_neg hx)
  | seImm x nn | sneImm x nn => simp only [effect, skipIf_eq]; rfl
  | seReg x y | sneReg x y => simp only [effect, skipIf_eq]; rfl
  | skp x | sknp x => simp only [effect, skipIf_eq]; rfl
  | ldBcd x => rw [effect, writeBytes_eq]; rfl
  | storeRegs x => rw [effect, advanceIndex_eq]; exact storeRegs_v _ _ _ r
  | _ => rfl

/-- Settles O21: an error leaves the registers, and an effect writes only those it may. -/
theorem registersChangeOnlyByTheirWriters : Obligations.RegistersChangeOnlyByTheirWriters := by
  intro i s t r h hr
  rcases exec_cases i s t h with ⟨-, rfl⟩ | ⟨-, k, info, -, ⟨-, rfl⟩ | ⟨-, -, rfl⟩⟩
  · exact effect_v i s r hr
  · rfl
  · rfl

end Sys2Proof.Machine
end

section
/-! PROOFS. What an instruction reads of the inputs (spec/10_state.md R32; spec/40_cycle.md R103). -/

namespace Sys2Proof.Machine

/-- The state with other inputs: a held-key vector and a random byte (R32, R103). -/
def State.withInputs (s : State) (m : BitVec 16) (r : Byte) : State := { s with keys := m, rand8 := r }

/-- The answer with a function applied to its next state. -/
def mapNext (f : State → State) : Result → Result
  | .next s => .next (f s)
  | .fault e => .fault e
  | .refused e => .refused e

/-- The error an instruction raises when it is not `errorFree`: its kind and the info it records (R250). -/
def raisedError (i : Instr) (s : State) : FaultKind × Nat :=
  match i with
  | .ret => (.stackUnderflow, s.sp)
  | .call _ => (.stackOverflow, s.sp)
  | .skp x | .sknp x => (.keyIndexFault, (s.v x).toNat)
  | _ => (.addressFault, max s.I.toNat 0x1000)

/-- An instruction that is not `errorFree` raises its own error, with the info of the state before it. -/
theorem exec_raisedError (i : Instr) (s : State) (h : ¬errorFree i s) :
    exec i s = raise (raisedError i s).1 (raisedError i s).2 s := by
  cases i <;> simp only [errorFree, not_true_eq_false] at h
  case ret => exact if_pos (not_not.1 h)
  case call nnn => exact if_pos (by simpa [State.stackFull] using h)
  case skp x | sknp x => exact if_pos (by omega)
  case drw x y n => exact withRange_error _ _ _ _ (by omega) (by omega)
  case ldBcd x => exact withRange_error _ _ _ _ (by omega) (by omega)
  case storeRegs x | loadRegs x => exact withRange_error _ _ _ _ (by omega) (by omega)

section Inputs
variable (s : State) (m : BitVec 16) (r : Byte)

theorem skipIf_withInputs (c : Bool) : (s.withInputs m r).skipIf c = (s.skipIf c).withInputs m r := by
  cases c <;> rfl

theorem resetFlagOnLogic_withInputs :
    (s.withInputs m r).resetFlagOnLogic = s.resetFlagOnLogic.withInputs m r :=
  (apply_ite (State.withInputs · m r) (s.cfg.resetFlagOnLogicOps = true) (s.setV VF 0) s).symm

theorem flagIndexOverflow_withInputs :
    (s.withInputs m r).flagIndexOverflow = s.flagIndexOverflow.withInputs m r :=
  (apply_ite (State.withInputs · m r) _ (s.setV VF 1) s).symm

theorem advanceIndex_withInputs (n : Nat) :
    (s.withInputs m r).advanceIndex n = (s.advanceIndex n).withInputs m r := by
  rw [advanceIndex_eq, advanceIndex_eq]; rfl

theorem writeBytes_withInputs (base : Nat) (bs : List Byte) :
    (s.withInputs m r).writeBytes base bs = (s.writeBytes base bs).withInputs m r := by
  induction bs generalizing s base with
  | nil => rfl
  | cons b bs ih => exact ih (s.setByte base b) (base + 1)

theorem storeRegs_withInputs (base n : Nat) :
    (s.withInputs m r).storeRegs base n = (s.storeRegs base n).withInputs m r := by
  induction n with
  | zero => rfl
  | succ n ih => rw [storeRegs_succ, storeRegs_succ, ih]; rfl

theorem loadRegs_withInputs (base n : Nat) :
    (s.withInputs m r).loadRegs base n = (s.loadRegs base n).withInputs m r := by
  induction n with
  | zero => rfl
  | succ n ih => rw [loadRegs_succ, loadRegs_succ, ih]; rfl

theorem raise_withInputs (k : FaultKind) (info : Nat) :
    raise k info (s.withInputs m r) = mapNext (State.withInputs · m r) (raise k info s) := by
  have hcfg : (s.withInputs m r).cfg = s.cfg := rfl
  unfold raise
  rw [hcfg]
  split <;> rfl

/-- An effect is the same under other inputs, but for RND's random byte and the keys of SKP and SKNP. -/
theorem effect_withInputs (i : Instr) (hr : ∀ x nn, i = .rnd x nn → r = s.rand8)
    (hm : ∀ x, i = .skp x ∨ i = .sknp x → m = s.keys) :
    effect i (s.withInputs m r) = (effect i s).withInputs m r := by
  cases i with
  | rnd x nn => rw [hr x nn rfl]; rfl
  | skp x => rw [hm x (.inl rfl)]; exact skipIf_withInputs s.advance _ _ _
  | sknp x => rw [hm x (.inr rfl)]; exact skipIf_withInputs s.advance _ _ _
  | seImm x nn | sneImm x nn => exact skipIf_withInputs s.advance m r _
  | seReg x y | sneReg x y => exact skipIf_withInputs s.advance m r _
  | or x y | and x y | xor x y => exact resetFlagOnLogic_withInputs (s.advance.setV x _) m r
  | addIndex x => exact flagIndexOverflow_withInputs { s.advance with I := _ } m r
  | ldBcd x => exact writeBytes_withInputs s.advance m r _ _
  | storeRegs x =>
    exact (congrArg (State.advanceIndex · _) (storeRegs_withInputs s.advance m r _ _)).trans
      (advanceIndex_withInputs _ m r _)
  | loadRegs x =>
    exact (congrArg (State.advanceIndex · _) (loadRegs_withInputs s.advance m r _ _)).trans
      (advanceIndex_withInputs _ m r _)
  | _ => rfl

/-- Which error an instruction raises does not depend on the inputs. -/
theorem raisedError_withInputs (i : Instr) : raisedError i (s.withInputs m r) = raisedError i s := rfl

/-- An instruction answers the same under other inputs, but for RND's random byte and the keys of SKP and SKNP
(R32, R103). -/
theorem exec_withInputs (i : Instr) (hr : ∀ x nn, i = .rnd x nn → r = s.rand8)
    (hm : ∀ x, i = .skp x ∨ i = .sknp x → m = s.keys) :
    exec i (s.withInputs m r) = mapNext (State.withInputs · m r) (exec i s) := by
  by_cases he : errorFree i s
  · have he' : errorFree i (s.withInputs m r) := he
    rw [exec_effect i s he, exec_effect i _ he', effect_withInputs s m r i hr hm]
    rfl
  · have he' : ¬errorFree i (s.withInputs m r) := he
    rw [exec_raisedError i s he, exec_raisedError i _ he', raisedError_withInputs, raise_withInputs]

end Inputs

/-- The inputs stay as they were (R32). -/
theorem exec_inputs (i : Instr) (s t : State) (h : exec i s = .next t) : t.keys = s.keys ∧ t.rand8 = s.rand8 := by
  obtain ⟨u, st, f, e, rfl⟩ := exec_writes i s t h
  exact ⟨rfl, rfl⟩

/-- Settles O23: change one input, and keep the other as the state has it. -/
theorem inputsAreReadOnlyByTheirReaders : Obligations.InputsAreReadOnlyByTheirReaders := by
  intro i s t r m h
  obtain ⟨hkeys, hrand⟩ := exec_inputs i s t h
  constructor
  · intro hrnd
    calc exec i (s.withInputs s.keys r)
      _ = mapNext (State.withInputs · s.keys r) (exec i s) :=
        exec_withInputs s s.keys r i (fun x nn e => absurd e (hrnd x nn)) (fun _ _ => rfl)
      _ = .next (t.withInputs t.keys r) := by rw [h, hkeys]; rfl
  · intro hskp hsknp
    calc exec i (s.withInputs m s.rand8)
      _ = mapNext (State.withInputs · m s.rand8) (exec i s) :=
        exec_withInputs s m s.rand8 i (fun _ _ _ => rfl) (fun x e => (e.elim (hskp x) (hsknp x)).elim)
      _ = .next (t.withInputs m t.rand8) := by rw [h, hrand]; rfl

end Sys2Proof.Machine
end

section
/-! PROOFS. What a step can do, and the end of a run (spec/40_cycle.md R100, R101, R114, R115). -/

namespace Sys2Proof.Machine

/-! ### One event of the host (R100, R101, R114) -/

/-- The state once the first coming event is taken (log entry 1). -/
def State.dropEvent (s : State) : State := { s with events := s.events.tail }

/-- What one step can do: fetch and execute with some random byte, nothing, or one of the host's other events. -/
inductive StepsTo (s : State) : State → Prop where
  | execute {t : State} (r : Byte) (d : Nat) (he : s.stepEnabled = true)
      (h : fetchExecute { s.dropEvent with rand8 := r, draws := d } = .next t) : StepsTo s t
  | hold : StepsTo s s.dropEvent
  | delayTick : StepsTo s (delayTick s.dropEvent)
  | soundTick : StepsTo s (soundTick s.dropEvent)
  | keyPress (k : Nibble) : StepsTo s (keyPress k s.dropEvent)
  | setKeys (m : BitVec 16) (hm : s.events = .setKeys m :: s.events.tail) : StepsTo s (setKeys m s.dropEvent)
  | redrawAck : StepsTo s (redrawAck s.dropEvent)

/-- A Step event fetches and executes when a Step is enabled, and else dispatches nothing (R101). -/
theorem stepEvent_stepsTo {s t : State} (r : Byte) (d : Nat)
    (h : (if s.stepEnabled = true then fetchExecute { s.dropEvent with rand8 := r, draws := d }
      else .next s.dropEvent) = .next t) : StepsTo s t := by
  split at h
  case isTrue he => exact .execute r d he h
  case isFalse => cases h; exact .hold

/-- Every step does one of these things. -/
theorem step_stepsTo {s t : State} (h : step s = .next t) : StepsTo s t := by
  unfold step nextEvent at h
  split at h
  next he =>
    have hd : s.dropEvent = s := by rw [State.dropEvent, he, List.tail_nil, ← he]
    refine stepEvent_stepsTo (Config.rand8 s.draws) (s.draws + 1) ?_
    rw [hd]
    exact h
  next e rest he =>
    have hd : { s with events := rest } = s.dropEvent := by rw [State.dropEvent, he, List.tail_cons]
    rw [hd] at h
    cases e with
    | step r => exact stepEvent_stepsTo r s.draws h
    | delayTick => cases h; exact .delayTick
    | soundTick => cases h; exact .soundTick
    | keyPress k => cases h; exact .keyPress k
    | setKeys m => cases h; exact .setKeys m (by rw [he, List.tail_cons])
    | redrawAck => cases h; exact .redrawAck

/-- A fetch above 0xFFF is an address fault; any other fetch runs an instruction (R102, R260). -/
theorem fetchExecute_cases {s t : State} (h : fetchExecute s = .next t) :
    (∃ a, t = faultState s .addressFault a) ∨ ∃ i, exec i s = .next t := by
  unfold fetchExecute at h
  split at h
  next a _ =>
    rw [raise_fatal _ _ _ rfl] at h
    exact .inl ⟨a, (Host.Outcome.next.inj h).symm⟩
  next => exact .inr ⟨_, h⟩

/-- The coming events and the configuration are not the instructions' to change (R33, R37). -/
theorem fetchExecute_events_cfg {s t : State} (h : fetchExecute s = .next t) :
    t.events = s.events ∧ t.cfg = s.cfg := by
  rcases fetchExecute_cases h with ⟨a, rfl⟩ | ⟨i, h⟩
  · exact ⟨rfl, rfl⟩
  · obtain ⟨u, st, f, e, rfl⟩ := exec_writes i s t h
    exact ⟨rfl, rfl⟩

/-- A DelayTick changes DT only (R105). -/
theorem delayTick_eq (s : State) : delayTick s = { s with DT := (delayTick s).DT } := by
  unfold delayTick; split <;> rfl

/-- A SoundTick changes ST only (R106). -/
theorem soundTick_eq (s : State) : soundTick s = { s with ST := (soundTick s).ST } := by
  unfold soundTick; split <;> rfl

/-- A RedrawAck changes redraw only (R109). -/
theorem redrawAck_eq (s : State) : redrawAck s = { s with redraw := (redrawAck s).redraw } := by
  unfold redrawAck; split <;> rfl

/-- A KeyPress resolves a pending wait, or does nothing (R107). -/
theorem keyPress_cases (k : Nibble) (s : State) :
    keyPress k s = s ∨ keyPress k s = { s.setV s.keyWaitReg (keyByte k) with keyWait := false } := by
  unfold keyPress; split <;> simp

/-- Settles O8: by what the step does with its event. -/
theorem stepTakesOneEventKeepsConfig : Obligations.StepTakesOneEventKeepsConfig := by
  intro s t h
  cases step_stepsTo h with
  | execute r d _ h => exact fetchExecute_events_cfg h
  | hold => exact ⟨rfl, rfl⟩
  | delayTick => rw [delayTick_eq]; exact ⟨rfl, rfl⟩
  | soundTick => rw [soundTick_eq]; exact ⟨rfl, rfl⟩
  | keyPress k => rcases keyPress_cases k s.dropEvent with e | e <;> rw [e] <;> exact ⟨rfl, rfl⟩
  | setKeys m _ => exact ⟨rfl, rfl⟩
  | redrawAck => rw [redrawAck_eq]; exact ⟨rfl, rfl⟩

/-! ### The end of a run (R30, R115) -/

theorem State.ended.status_ne_run {s : State} (h : s.ended) : s.status ≠ .run := by
  rcases h with h | h <;> simp [h]

/-- No Step is enabled after the end (R101). -/
theorem State.ended.stepEnabled {s : State} (h : s.ended) : s.stepEnabled = false := by
  simp [State.stepEnabled, h.status_ne_run]

/-- Settles O11: after the end no Step is enabled, and every other event but SetKeys asks for status RUN. -/
theorem endedRunIsFinal : Obligations.EndedRunIsFinal := by
  intro s t hend h
  have hrun : s.dropEvent.status ≠ .run := hend.status_ne_run
  cases step_stepsTo h with
  | execute r d he _ => exact absurd he (by simp [hend.stepEnabled])
  | hold => exact ⟨rfl, fun _ => rfl⟩
  | delayTick => rw [delayTick, if_neg fun c => hrun c.1]; exact ⟨rfl, fun _ => rfl⟩
  | soundTick => rw [soundTick, if_neg fun c => hrun c.1]; exact ⟨rfl, fun _ => rfl⟩
  | keyPress k => rw [keyPress, if_neg fun c => hrun c.1]; exact ⟨rfl, fun _ => rfl⟩
  | setKeys m hm => exact ⟨rfl, fun hno => absurd hm (hno m _)⟩
  | redrawAck => rw [redrawAck, if_neg hrun]; exact ⟨rfl, fun _ => rfl⟩

end Sys2Proof.Machine
end

section
/-! PROOFS. Every step keeps the invariant (spec/10_state.md R24, R30, R31; spec/60_exceptions.md R256, R257). -/

namespace Sys2Proof.Machine

/-- Settles O12: memory lists nothing, the stack is empty, and no error was taken. -/
theorem resetMeetsInvariant : Obligations.ResetMeetsInvariant where
  memory := reset_wf
  depth := Nat.zero_le _
  unusedSlots k _ := by simp only [State.slot, State.reset, Vector.getElem?_replicate]; split <;> rfl
  record := by decide
  precise f h := by cases h
  waiting h := by cases h
  reported k h := by cases h

/-- An effect keeps memory canonical: its writes are inside the range that was checked (R50, R253). -/
theorem effect_memory_wf (i : Instr) (s : State) (he : errorFree i s) (h : Memory.wf s.cfg s.mem) :
    Memory.wf s.cfg (effect i s).mem := by
  cases i with
  | ldBcd x =>
    have := writeBytes_wf s.advance s.I.toNat (decimalDigits (s.v x)) h he
    rwa [writeBytes_eq] at this
  | storeRegs x =>
    rw [effect, advanceIndex_eq]
    have := storeRegs_wf s.advance s.I.toNat (x.toNat + 1) h (.inr he)
    rwa [storeRegs_eq] at this
  | _ => rw [effect_mem _ _ rfl]; exact h

/-- An effect keeps the stack inside its depth: CALL has a free slot, and RET an occupied one (R24). -/
theorem effect_depth (i : Instr) (s : State) (he : errorFree i s) (h : s.sp ≤ s.cfg.stackDepth.slots) :
    (effect i s).sp ≤ s.cfg.stackDepth.slots := by
  cases i with
  | ret => exact (Nat.sub_le _ _).trans h
  | call nnn => exact he
  | _ => rw [effect_sp _ _ rfl]; exact h

theorem stackDepth_slots_le (d : StackDepth) : d.slots ≤ 32 := by cases d <;> decide

/-- An effect leaves the slots the configured stack does not have: CALL writes the slot at sp (R24, R122). -/
theorem effect_unusedSlots (i : Instr) (s : State) (he : errorFree i s) (k : Nat)
    (hk : s.cfg.stackDepth.slots ≤ k) : (effect i s).slot k = s.slot k := by
  cases i with
  | ret => rfl
  | call nnn =>
    have hsp : s.sp < s.cfg.stackDepth.slots := he
    have hle := stackDepth_slots_le s.cfg.stackDepth
    exact (slot_push s.advance _ k (hsp.trans_le hle)).trans (if_neg (by simp; omega))
  | _ => rw [State.slot, effect_stack _ _ rfl]; rfl

/-- After an effect a key wait is pending only in a run that goes on: HALT starts none (R215, R231). -/
theorem effect_waiting (i : Instr) (s : State) (hs : s.status = .run) (hw : s.keyWait = false)
    (h : (effect i s).keyWait = true) : (effect i s).status = .run := by
  by_cases hi : i = .halt
  · subst hi
    exact absurd h (by simp [effect, hw])
  · rw [effect_status i s hi, hs]

/-- No effect enters FAULT. -/
theorem effect_status_ne_fault (i : Instr) (s : State) (hs : s.status = .run) : (effect i s).status ≠ .fault := by
  by_cases hi : i = .halt
  · subst hi; simp [effect]
  · simp [effect_status i s hi, hs]

namespace State.Inv

/-- The invariant says nothing of the registers, I, the timers, the screen, the register a key is waited for,
the inputs and the model's own fields. -/
theorem with_unconstrained {s : State} (h : s.Inv) {regs I DT ST fb redraw keyWaitReg keys rand8 draws events} :
    State.Inv { s with regs, I, DT, ST, fb, redraw, keyWaitReg, keys, rand8, draws, events } where
  memory := h.memory
  depth := h.depth
  unusedSlots := h.unusedSlots
  record := h.record
  precise := h.precise
  waiting := h.waiting
  reported := h.reported

/-- Ending a key wait keeps the invariant (R107). -/
theorem endWait {s : State} (h : s.Inv) : State.Inv { s with keyWait := false } where
  memory := h.memory
  depth := h.depth
  unusedSlots := h.unusedSlots
  record := h.record
  precise := h.precise
  waiting hw := by cases hw
  reported := h.reported

/-- No fault is recorded before a FAULT (R31). -/
theorem fault_eq_none {s : State} (h : s.Inv) (hs : s.status ≠ .fault) : s.fault = none := by
  rw [← Option.not_isSome_iff_eq_none, h.record]
  exact hs

/-- A fatal error keeps the invariant when its kind can be raised and no key wait is pending (R256). -/
theorem of_faultState {s : State} (h : s.Inv) (hw : s.keyWait = false) {k : FaultKind} (info : Nat)
    (hk : k ≠ .loadError) (hm : k.isStackError = true → s.cfg.stackErrorMode = .fatal) :
    (faultState s k info).Inv where
  memory := h.memory
  depth := h.depth
  unusedSlots := h.unusedSlots
  record := by simp [faultState]
  precise f hf := by cases hf; exact ⟨rfl, hk, hm⟩
  waiting hw' := by simp [faultState, hw] at hw'
  reported := h.reported

/-- An ignored stack error of a running machine keeps the invariant (R257). -/
theorem of_ignoredState {s : State} (h : s.Inv) (hs : s.status ≠ .fault) {k : FaultKind}
    (hk : k.isStackError = true) (hm : s.cfg.stackErrorMode = .ignore) : (ignoredState s k).Inv where
  memory := h.memory
  depth := h.depth
  unusedSlots := h.unusedSlots
  record := h.record
  precise f hf := by cases (h.fault_eq_none hs).symm.trans hf
  waiting := h.waiting
  reported k' hk' := by
    rcases List.mem_append.1 hk' with hk' | hk'
    · exact h.reported k' hk'
    · cases List.mem_singleton.1 hk'
      exact ⟨hk, hm⟩

/-- An effect keeps the invariant. -/
theorem of_effect {s : State} (h : s.Inv) (hs : s.status = .run) (hw : s.keyWait = false) (i : Instr)
    (he : errorFree i s) : (effect i s).Inv where
  memory := by rw [effect_cfg]; exact effect_memory_wf i s he h.memory
  depth := by rw [effect_cfg]; exact effect_depth i s he h.depth
  unusedSlots k hk := by
    rw [effect_cfg] at hk
    rw [effect_unusedSlots i s he k hk]
    exact h.unusedSlots k hk
  record := by
    rw [effect_fault, h.fault_eq_none (by simp [hs])]
    simp [effect_status_ne_fault i s hs]
  precise f hf := by
    rw [effect_fault, h.fault_eq_none (by simp [hs])] at hf
    cases hf
  waiting := effect_waiting i s hs hw
  reported := by rw [effect_errors, effect_cfg]; exact h.reported

/-- Every instruction keeps the invariant (R256, R257). -/
theorem of_exec {s t : State} (h : s.Inv) (hs : s.status = .run) (hw : s.keyWait = false) (i : Instr)
    (ht : exec i s = .next t) : t.Inv := by
  rcases exec_cases i s t ht with ⟨he, rfl⟩ | ⟨-, k, info, hk, ⟨hm, rfl⟩ | ⟨hstack, hm, rfl⟩⟩
  · exact h.of_effect hs hw i he
  · refine h.of_faultState hw info ?_ hm
    rintro rfl
    cases i <;> cases hk
  · exact h.of_ignoredState (by simp [hs]) hstack hm

/-- Every Step that is enabled keeps the invariant (R102, R260). -/
theorem of_fetchExecute {s t : State} (h : s.Inv) (hs : s.status = .run) (hw : s.keyWait = false)
    (ht : fetchExecute s = .next t) : t.Inv := by
  rcases fetchExecute_cases ht with ⟨a, rfl⟩ | ⟨i, ht⟩
  · exact h.of_faultState hw a (by decide) (fun hstack => by cases hstack)
  · exact h.of_exec hs hw i ht

end State.Inv

/-- Settles O14: a Step is enabled only in a running machine with no key wait, and the host's other events touch
what the invariant does not constrain, or end a key wait. -/
theorem stepKeepsInvariant : Obligations.StepKeepsInvariant := by
  intro s t hinv h
  have hdrop : s.dropEvent.Inv := hinv.with_unconstrained
  cases step_stepsTo h with
  | execute r d he h =>
    obtain ⟨hs, hw⟩ : s.status = .run ∧ s.keyWait = false := by simpa [State.stepEnabled] using he
    have hstep : State.Inv { s.dropEvent with rand8 := r, draws := d } := hinv.with_unconstrained
    exact hstep.of_fetchExecute hs hw h
  | hold => exact hdrop
  | delayTick => rw [delayTick_eq]; exact hdrop.with_unconstrained
  | soundTick => rw [soundTick_eq]; exact hdrop.with_unconstrained
  | keyPress k =>
    rcases keyPress_cases k s.dropEvent with e | e <;> rw [e]
    · exact hdrop
    · exact hdrop.with_unconstrained.endWait
  | setKeys m _ => exact hdrop.with_unconstrained
  | redrawAck => rw [redrawAck_eq]; exact hdrop.with_unconstrained

end Sys2Proof.Machine
end

section
/-! PROOFS. The word the next fetch reads (spec/20_memory.md R55, R61; spec/40_cycle.md R102). -/

namespace Sys2Proof.Machine

/-! ### Fetching a word (R55, R102) -/

/-- The first byte of a word is its high byte (R55). -/
theorem toNat_ofBytes (hi lo : Byte) : (Word.ofBytes hi lo).toNat = 256 * hi.toNat + lo.toNat := by
  have hlo := lo.isLt
  rw [Word.ofBytes, BitVec.toNat_append, ← Nat.shiftLeft_add_eq_or_of_lt hlo, Nat.shiftLeft_eq]
  omega

/-- A word that lies whole inside memory is fetched, decoded and executed (R102). -/
theorem fetchExecute_in (s : State) (h : s.pc.toNat + 2 ≤ 0x1000) :
    fetchExecute s = exec (decodeWord s.fetchedWord) s := by
  rw [fetchExecute, (firstOutOfRange_eq_none_iff _ _).2 (.inr h)]

/-- With no event coming, an enabled Step runs the word at pc with a free random byte (R101, R102, R103). -/
theorem step_free (s : State) (he : s.events = []) (hs : s.stepEnabled = true) (h : s.pc.toNat + 2 ≤ 0x1000) :
    step s = exec (decodeWord s.fetchedWord) { s with rand8 := Config.rand8 s.draws, draws := s.draws + 1 } := by
  unfold step nextEvent
  split
  next => exact (if_pos hs).trans (fetchExecute_in _ h)
  next hcons => rw [he] at hcons; cases hcons

/-! ### Placing a word at pc (log entry 8) -/

/-- A word whose two bytes are written at pc is the word fetched there (R55). -/
theorem fetchedWord_writeBytes (s : State) (w : Word) :
    (s.writeBytes s.pc.toNat [w.hiByte, w.loByte]).fetchedWord = w := by
  have hpc : (s.writeBytes s.pc.toNat [w.hiByte, w.loByte]).pc = s.pc := by rw [writeBytes_eq]
  rw [State.fetchedWord, hpc, byte_writeBytes, byte_writeBytes]
  simp

/-- Where a word is placed, it lies whole inside memory. -/
theorem readyToFetch_pc_in (s : State) : s.readyToFetch.pc.toNat + 2 ≤ 0x1000 := by
  simp only [State.readyToFetch]
  split
  · omega
  · decide

/-- Placing a word changes the state made ready to fetch in its memory only. -/
theorem placeWord_eq (s : State) (w : Word) : s.placeWord w = { s.readyToFetch with mem := (s.placeWord w).mem } :=
  writeBytes_eq _ _ _

theorem placeWord_fetchedWord (s : State) (w : Word) : (s.placeWord w).fetchedWord = w :=
  fetchedWord_writeBytes s.readyToFetch w

theorem placeWord_events (s : State) (w : Word) : (s.placeWord w).events = [] := by
  rw [placeWord_eq]; rfl

theorem placeWord_stepEnabled (s : State) (w : Word) : (s.placeWord w).stepEnabled = true := by
  rw [placeWord_eq]; rfl

theorem placeWord_pc_in (s : State) (w : Word) : (s.placeWord w).pc.toNat + 2 ≤ 0x1000 := by
  rw [placeWord_eq]; exact readyToFetch_pc_in s

/-- The step from a placed word executes that word's instruction (R55, R102). -/
theorem step_placeWord (s : State) (w : Word) :
    step (s.placeWord w) = exec (decodeWord w)
      { s.placeWord w with rand8 := Config.rand8 (s.placeWord w).draws, draws := (s.placeWord w).draws + 1 } := by
  rw [step_free _ (placeWord_events s w) (placeWord_stepEnabled s w) (placeWord_pc_in s w), placeWord_fetchedWord]

/-- Settles O9: the placed word is fetched in range by the free Step that comes next. -/
theorem placedWordIsRunNext : Obligations.PlacedWordIsRunNext := by
  intro s w hw
  have hword : tableWord 16 w = BitVec.ofNat 16 w := congrArg _ (Nat.mod_eq_of_lt hw)
  have hdraws : (s.placeWord (BitVec.ofNat 16 w)).draws = s.draws := by rw [placeWord_eq]; rfl
  rw [State.withFetchWord, hword, step_placeWord, hdraws]

/-! ### Code that writes code (R61, R285) -/

/-- What registers stored from an address on make of the bytes of memory; the new I does not matter. -/
theorem byte_effect_storeRegs (s : State) (x : Reg) (a : Nat) :
    (effect (.storeRegs x) s).byte a =
      if s.I.toNat ≤ a ∧ a < s.I.toNat + (x.toNat + 1) then s.v (BitVec.ofNat 4 (a - s.I.toNat)) else s.byte a := by
  rw [effect, advanceIndex_eq]
  exact byte_storeRegs s.advance _ _ a

theorem effect_storeRegs_pc (s : State) (x : Reg) : (effect (.storeRegs x) s).pc = s.pc + 2 := by
  rw [effect, advanceIndex_eq, storeRegs_eq]; rfl

/-- Settles O46: the bytes at the new pc are the first two that the instruction stored. -/
theorem storeIsSeenByTheNextFetch : Obligations.StoreIsSeenByTheNextFetch := by
  intro s x hx hI hr
  refine ⟨_, exec_effect (.storeRegs x) s (show s.I.toNat + (x.toNat + 1) ≤ 0x1000 by omega), ?_⟩
  have hpc : (effect (.storeRegs x) s).pc = s.I := by rw [effect_storeRegs_pc, hI]
  have hhi : (effect (.storeRegs x) s).byte s.I.toNat = s.v 0 := by
    rw [byte_effect_storeRegs, if_pos (by omega), Nat.sub_self]; rfl
  have hlo : (effect (.storeRegs x) s).byte (s.I.toNat + 1) = s.v 1 := by
    rw [byte_effect_storeRegs, if_pos (by omega), Nat.add_sub_cancel_left]; rfl
  rw [State.fetchedWord, hpc, hhi, hlo, toNat_ofBytes]

end Sys2Proof.Machine
end

section
/-! PROOFS. The decoder and the encoder agree (spec/30_encoding.md R70 to R75; spec/20_memory.md R55). -/

namespace Sys2Proof

/-- Settles O1: seventeen closed words, each decoded by evaluation. -/
theorem decoderReadsListedWords : Obligations.DecoderReadsListedWords := by
  unfold Obligations.DecoderReadsListedWords
  decide

/-! ### A word rebuilt from its fields, its family known (R71, R73) -/

section KnownFamily
variable {w : Word} {f : Nibble} (h : w.family.toNat = f.toNat)
include h

theorem wordNNN_of_family : wordNNN f w.fieldNNN = w := by
  rw [← BitVec.eq_of_toNat_eq h, wordNNN_fields]

theorem wordXNN_of_family : wordXNN f w.fieldX w.fieldNN = w := by
  rw [← BitVec.eq_of_toNat_eq h, wordXNN_fields]

theorem wordXYN_of_family : wordXYN f w.fieldX w.fieldY w.fieldN = w := by
  rw [← BitVec.eq_of_toNat_eq h, wordXYN_fields]

end KnownFamily

/-! ### What the families with a sub-opcode decode to is well formed, and has the word it came from (R74)

The branches before the last name a row, whose sub-opcode the branch's condition gives; the last is the residual
row, well formed because every branch before it was passed. -/

section Families
variable (x y : Reg) (n : Nibble) (nn : Byte) (nnn : Addr12)

theorem decode0_wf : (decode0 nnn).wf = true := by
  unfold decode0; split_ifs <;> simp_all [Instr.wf]

theorem decode5_wf : (decode5 x y n).wf = true := by
  unfold decode5; split_ifs <;> simp_all [Instr.wf]

/-- The sub-opcodes left to NOP_8 are those its row lists (R233). -/
theorem decode8_wf : (decode8 x y n).wf = true := by
  unfold decode8
  split_ifs
  case neg =>
    simp only [Instr.wf, Bool.or_eq_true, beq_iff_eq]
    bv_omega
  all_goals rfl

theorem decode9_wf : (decode9 x y n).wf = true := by
  unfold decode9; split_ifs <;> simp_all [Instr.wf]

theorem decodeE_wf : (decodeE x nn).wf = true := by
  unfold decodeE; split_ifs <;> simp_all [Instr.wf]

theorem decodeF_wf : (decodeF x nn).wf = true := by
  unfold decodeF; split_ifs <;> simp_all [Instr.wf]

theorem encode_decode0 : encode (decode0 nnn) = wordNNN 0x0 nnn := by
  unfold decode0; split_ifs <;> subst_vars <;> rfl

theorem encode_decode5 : encode (decode5 x y n) = wordXYN 0x5 x y n := by
  unfold decode5; split_ifs <;> subst_vars <;> rfl

theorem encode_decode8 : encode (decode8 x y n) = wordXYN 0x8 x y n := by
  unfold decode8; split_ifs <;> subst_vars <;> rfl

theorem encode_decode9 : encode (decode9 x y n) = wordXYN 0x9 x y n := by
  unfold decode9; split_ifs <;> subst_vars <;> rfl

theorem encode_decodeE : encode (decodeE x nn) = wordXNN 0xE x nn := by
  unfold decodeE; split_ifs <;> subst_vars <;> rfl

theorem encode_decodeF : encode (decodeF x nn) = wordXNN 0xF x nn := by
  unfold decodeF; split_ifs <;> subst_vars <;> rfl

/-! ### A residual row's free bits are no other row's (R74 "excludes") -/

theorem decode0_of_wf (h : (Instr.sys nnn).wf = true) : decode0 nnn = .sys nnn := by
  simp only [Instr.wf, Bool.and_eq_true, bne_iff_ne] at h
  simp only [decode0, h, if_false]

theorem decode5_of_wf (h : (Instr.nop5 x y n).wf = true) : decode5 x y n = .nop5 x y n :=
  if_neg (bne_iff_ne.1 h)

theorem decode8_of_wf (h : (Instr.nop8 x y n).wf = true) : decode8 x y n = .nop8 x y n := by
  simp only [Instr.wf, Bool.or_eq_true, beq_iff_eq, or_assoc] at h
  rcases h with rfl | rfl | rfl | rfl | rfl | rfl | rfl <;> rfl

theorem decode9_of_wf (h : (Instr.nop9 x y n).wf = true) : decode9 x y n = .nop9 x y n :=
  if_neg (bne_iff_ne.1 h)

theorem decodeE_of_wf (h : (Instr.nopE x nn).wf = true) : decodeE x nn = .nopE x nn := by
  simp only [Instr.wf, Bool.and_eq_true, bne_iff_ne] at h
  simp only [decodeE, h, if_false]

theorem decodeF_of_wf (h : (Instr.nopF x nn).wf = true) : decodeF x nn = .nopF x nn := by
  simp only [Instr.wf, Bool.and_eq_true, bne_iff_ne] at h
  simp only [decodeF, h, if_false]

end Families

/-! ### Words (R72, R74, R75) -/

/-- Every word decodes to a well-formed instruction (R72). -/
theorem decodeWord_wf (w : Word) : (decodeWord w).wf = true := by
  unfold decodeWord
  split -- `h_k` is the arm of family k - 1
  case h_1 => exact decode0_wf _
  case h_6 => exact decode5_wf _ _ _
  case h_9 => exact decode8_wf _ _ _
  case h_10 => exact decode9_wf _ _ _
  case h_15 => exact decodeE_wf _ _
  case h_16 => exact decodeF_wf _ _
  all_goals rfl

/-- Encoding what a word decodes to loses no bit of the word (R74). -/
theorem encode_decodeWord (w : Word) : encode (decodeWord w) = w := by
  unfold decodeWord
  split -- `h_k` is the arm of family k - 1
  case h_1 h => rw [encode_decode0, wordNNN_of_family h]
  case h_6 h => rw [encode_decode5, wordXYN_of_family h]
  case h_9 h => rw [encode_decode8, wordXYN_of_family h]
  case h_10 h => rw [encode_decode9, wordXYN_of_family h]
  case h_15 h => rw [encode_decodeE, wordXNN_of_family h]
  case h_16 =>
    have hlt := w.family.isLt
    have h : w.family.toNat = (0xF : Nibble).toNat := by grind
    rw [encode_decodeF, wordXNN_of_family h]
  case h_2 h | h_3 h | h_11 h | h_12 h => exact wordNNN_of_family h
  case h_4 h | h_5 h | h_7 h | h_8 h | h_13 h => exact wordXNN_of_family h
  case h_14 h => exact wordXYN_of_family h

/-- The word of a well-formed instruction decodes to it: a row without sub-opcode by its family, a named
sub-opcode by its arm, a residual row because it holds no named row's bits (R74, R75). -/
theorem decodeWord_encode (i : Instr) (h : i.wf = true) : decodeWord (encode i) = i := by
  cases i with
  | halt | cls | ret => rfl
  | sys nnn => simp [encode, decodeWord, decode0_of_wf nnn h]
  | jp nnn | call nnn | ldIndex nnn | jpOffset nnn => simp [encode, decodeWord]
  | seImm x nn | sneImm x nn | ldImm x nn | addImm x nn | rnd x nn => simp [encode, decodeWord]
  | drw x y n => simp [encode, decodeWord]
  | seReg x y => simp [encode, decodeWord, decode5]
  | nop5 x y n => simp [encode, decodeWord, decode5_of_wf x y n h]
  | ldReg x y | or x y | and x y | xor x y | addReg x y | sub x y | shr x y | subn x y | shl x y =>
    simp [encode, decodeWord, decode8]
  | nop8 x y n => simp [encode, decodeWord, decode8_of_wf x y n h]
  | sneReg x y => simp [encode, decodeWord, decode9]
  | nop9 x y n => simp [encode, decodeWord, decode9_of_wf x y n h]
  | skp x | sknp x => simp [encode, decodeWord, decodeE]
  | nopE x nn => simp [encode, decodeWord, decodeE_of_wf x nn h]
  | ldVxDt x | ldVxK x | ldDtVx x | ldStVx x | addIndex x | ldFont x | ldBcd x | storeRegs x | loadRegs x =>
    simp [encode, decodeWord, decodeF]
  | nopF x nn => simp [encode, decodeWord, decodeF_of_wf x nn h]

/-- Settles O3: decoding inverts encoding on well-formed instructions, so a word has no second one. -/
theorem everyWordIsExactlyOneInstruction : Obligations.EveryWordIsExactlyOneInstruction := by
  intro w
  refine ⟨decodeWord_wf w, encode_decodeWord w, ?_⟩
  rintro i hi rfl
  exact (decodeWord_encode i hi).symm

/-- Settles O2: the two bytes make up the instruction's word again, and that word decodes to it. -/
theorem decodeOfEncodeIsIdentity : Obligations.DecodeOfEncodeIsIdentity := by
  intro i rest hi
  calc decode (encodeBytes i ++ rest)
    _ = .ok (decodeWord (Word.ofBytes (encode i).hiByte (encode i).loByte), rest) := rfl
    _ = .ok (i, rest) := by rw [ofBytes_bytes, decodeWord_encode i hi]

end Sys2Proof
end

section
/-! PROOFS. No state stops the machine (spec/30_encoding.md R76; spec/60_exceptions.md R256, R257). -/

namespace Sys2Proof.Machine

/-- Every instruction answers a next state: its effect, or the state of its error (R76, R256, R257). -/
theorem exec_next (i : Instr) (s : State) : ∃ t, exec i s = .next t := by
  by_cases he : errorFree i s
  · exact ⟨_, exec_effect i s he⟩
  · rw [exec_raisedError i s he]
    exact raise_next _ _ s

/-- A fetch answers a next state, above 0xFFF as well (R253). -/
theorem fetchExecute_next (s : State) : ∃ t, fetchExecute s = .next t := by
  unfold fetchExecute
  split
  · exact raise_next _ _ s
  · exact exec_next _ s

theorem stepEvent_next (r : Byte) (s : State) : ∃ t, stepEvent r s = .next t := by
  unfold stepEvent
  split
  · exact fetchExecute_next _
  · exact ⟨s, rfl⟩

theorem freeStep_next (s : State) : ∃ t, freeStep s = .next t := by
  unfold freeStep
  split
  · exact fetchExecute_next _
  · exact ⟨s, rfl⟩

/-- Every event of the host answers a next state (R100). -/
theorem handleEvent_next (e : Event) (s : State) : ∃ t, handleEvent e s = .next t := by
  cases e with
  | step r => exact stepEvent_next r s
  | delayTick | soundTick | keyPress k | setKeys m | redrawAck => exact ⟨_, rfl⟩

/-- Settles O7: a step is a free Step or one event of the host, and each answers a next state. -/
theorem everyStepAnswersNext : Obligations.EveryStepAnswersNext := by
  intro s
  unfold step nextEvent
  split
  · exact freeStep_next s
  · exact handleEvent_next _ _

end Sys2Proof.Machine
end

section
/-! PROOFS. One Step and the host's other events (spec/40_cycle.md R101 to R109). -/

namespace Sys2Proof.Machine

/-! ### A step is one event (R100, R101, R114) -/

/-- With an event coming, the step handles it. -/
theorem step_of_event {s : State} {e : Event} {rest : List Event} (he : s.events = e :: rest) :
    step s = handleEvent e { s with events := rest } := by
  rw [step, nextEvent, he]

/-- With no event coming, the step is the host's free Step. -/
theorem step_of_no_event {s : State} (he : s.events = []) : step s = freeStep s := by
  rw [step, nextEvent, he]

theorem stepEnabled_iff (s : State) : s.stepEnabled = true ↔ s.status = .run ∧ s.keyWait = false := by
  simp [State.stepEnabled]

section Enabled
variable {s : State} {r : Byte} {rest : List Event} (hs : s.status = .run) (hw : s.keyWait = false)
include hs hw

/-- An enabled free Step fetches and executes with a free random byte, which it counts (R101, R102, R103). -/
theorem step_no_event_of_enabled (he : s.events = []) :
    step s = fetchExecute { s with rand8 := Config.rand8 s.draws, draws := s.draws + 1 } :=
  (step_of_no_event he).trans (if_pos ((stepEnabled_iff s).2 ⟨hs, hw⟩))

/-- An enabled Step event fetches and executes with the byte it carries (R101, R102, R103). -/
theorem step_stepEvent_of_enabled (he : s.events = .step r :: rest) :
    step s = fetchExecute { s with rand8 := r, events := rest } :=
  (step_of_event he).trans (if_pos ((stepEnabled_iff _).2 ⟨hs, hw⟩))

end Enabled

section NotEnabled
variable {s : State} {r : Byte} {rest : List Event} (hn : s.status ≠ .run ∨ s.keyWait = true)
include hn

theorem stepEnabled_eq_false : s.stepEnabled = false := by
  rw [Bool.eq_false_iff, ne_eq, stepEnabled_iff]
  rcases hn with hn | hn <;> simp [hn]

/-- With no event coming and no Step enabled the core holds (log entry 2). -/
theorem step_no_event_of_not_enabled (he : s.events = []) : step s = .next s :=
  (step_of_no_event he).trans (if_neg (by simp [stepEnabled_eq_false hn]))

/-- A Step event that is not enabled dispatches nothing (R101). -/
theorem step_stepEvent_of_not_enabled (he : s.events = .step r :: rest) :
    step s = .next { s with events := rest } :=
  (step_of_event he).trans (if_neg (ne_true_of_eq_false (stepEnabled_eq_false hn)))

end NotEnabled

/-- Settles O6: without an enabled Step, neither the free Step nor a Step event dispatches. -/
theorem stepNotEnabledHolds : Obligations.StepNotEnabledHolds := by
  intro s hn
  exact ⟨step_no_event_of_not_enabled hn, fun _ _ => step_stepEvent_of_not_enabled hn⟩

/-! ### The fetch (R102, R253) -/

/-- The bytes at pc decode as the word fetched there does (R55). -/
theorem decodeWord_fetchedWord_of_decode {s : State} {i : Instr}
    (h : decode [s.byte s.pc.toNat, s.byte (s.pc.toNat + 1)] = .ok (i, [])) :
    decodeWord s.fetchedWord = i :=
  congrArg Prod.fst (Except.ok.inj h)

/-- Settles O4: the fetch is in range and decodes to `i`, which neither the random byte nor the events change. -/
theorem stepRunsTheDecodedInstruction : Obligations.StepRunsTheDecodedInstruction := by
  intro s i hs hw hpc _ hdec
  have hrun (u : State) (hu : u.pc = s.pc) (hword : u.fetchedWord = s.fetchedWord) : fetchExecute u = exec i u := by
    rw [fetchExecute_in u (by rw [hu]; omega), hword, decodeWord_fetchedWord_of_decode hdec]
  exact ⟨fun he => (step_no_event_of_enabled hs hw he).trans (hrun _ rfl rfl),
    fun r rest he => (step_stepEvent_of_enabled hs hw he).trans (hrun _ rfl rfl)⟩

/-- A fetch above 0xFFF faults with the lowest address above it, before any byte is decoded (R253, R260). -/
theorem fetchExecute_out (s : State) (h : 0x1000 < s.pc.toNat + 2) :
    fetchExecute s = .next (faultState s .addressFault (max s.pc.toNat 0x1000)) := by
  rw [fetchExecute, firstOutOfRange_eq_some _ _ (by decide) h]
  exact raise_fatal _ _ _ rfl

/-- Settles O5: the fetch of an enabled Step, with its random byte drawn or its event taken, faults. -/
theorem fetchAboveMemoryFaults : Obligations.FetchAboveMemoryFaults := by
  intro s hs hw hpc
  have hout : 0x1000 < s.pc.toNat + 2 := by omega
  exact ⟨fun he => (step_no_event_of_enabled hs hw he).trans (fetchExecute_out _ hout),
    fun r rest he => (step_stepEvent_of_enabled hs hw he).trans (fetchExecute_out _ hout)⟩

/-! ### HALT (R102, R231) -/

/-- Only HALT enters status HALT, and it keeps pc: an error enters FAULT or keeps the status. -/
theorem exec_enters_halt {i : Instr} {s t : State} (h : exec i s = .next t) (hs : s.status ≠ .halt)
    (ht : t.status = .halt) : i = .halt ∧ t.pc = s.pc := by
  rcases exec_cases i s t h with ⟨-, rfl⟩ | ⟨-, k, info, -, ⟨-, rfl⟩ | ⟨-, -, rfl⟩⟩
  · have hi : i = .halt := by
      by_contra hi
      exact hs ((effect_status i s hi).symm.trans ht)
    subst hi
    exact ⟨rfl, rfl⟩
  · cases ht
  · exact absurd ht hs

/-- No word but 0x0000 decodes to HALT (R74, R231). -/
theorem eq_zero_of_decodeWord_eq_halt {w : Word} (h : decodeWord w = .halt) : w = 0 := by
  rw [← encode_decodeWord w, h]; rfl

/-- Fetching enters status HALT only at the word 0x0000, and keeps pc (R102). -/
theorem fetchExecute_enters_halt {s t : State} (h : fetchExecute s = .next t) (hs : s.status ≠ .halt)
    (ht : t.status = .halt) : s.fetchedWord = 0 ∧ t.pc = s.pc := by
  by_cases hr : s.pc.toNat + 2 ≤ 0x1000
  · rw [fetchExecute_in s hr] at h
    obtain ⟨hi, hpc⟩ := exec_enters_halt h hs ht
    exact ⟨eq_zero_of_decodeWord_eq_halt hi, hpc⟩
  · rw [fetchExecute_out s (by omega)] at h
    cases h
    cases ht

/-- Only a Step that fetches and executes changes the status (R30). -/
theorem step_executes_of_status_ne {s t : State} (h : step s = .next t) (hne : t.status ≠ s.status) :
    s.stepEnabled = true ∧ ∃ r d, fetchExecute { s.dropEvent with rand8 := r, draws := d } = .next t := by
  cases step_stepsTo h with
  | execute r d he h => exact ⟨he, r, d, h⟩
  | hold => exact absurd rfl hne
  | delayTick => exact absurd (congrArg State.status (delayTick_eq _)) hne
  | soundTick => exact absurd (congrArg State.status (soundTick_eq _)) hne
  | keyPress k =>
    rcases keyPress_cases k s.dropEvent with e | e <;> exact absurd (congrArg State.status e) hne
  | setKeys m _ => exact absurd rfl hne
  | redrawAck => exact absurd (congrArg State.status (redrawAck_eq _)) hne

/-- A word is zero only when both its bytes are (R55). -/
theorem bytes_eq_zero_of_ofBytes_eq_zero {hi lo : Byte} (h : Word.ofBytes hi lo = 0) : hi = 0 ∧ lo = 0 := by
  have hn : 256 * hi.toNat + lo.toNat = 0 := by rw [← toNat_ofBytes, h]; rfl
  exact ⟨BitVec.eq_of_toNat_eq (show hi.toNat = 0 by omega), BitVec.eq_of_toNat_eq (show lo.toNat = 0 by omega)⟩

/-- Settles O10: the status changed, so the step executed, and what it fetched was the word 0x0000. -/
theorem haltOnlyAtTheZeroWord : Obligations.HaltOnlyAtTheZeroWord := by
  intro s t hs h ht
  obtain ⟨hen, r, d, hx⟩ := step_executes_of_status_ne h (by simp [hs, ht])
  obtain ⟨hword, hpc⟩ := fetchExecute_enters_halt hx (by simp [State.dropEvent, hs]) ht
  obtain ⟨hhi, hlo⟩ := bytes_eq_zero_of_ofBytes_eq_zero hword
  exact ⟨((stepEnabled_iff s).1 hen).2, hhi, hlo, hpc⟩

/-! ### Key events and the acknowledge (R107, R108, R109) -/

/-- In a wait a KeyPress writes the register waited for and ends the wait (R107). -/
theorem keyPress_of_wait {s : State} (k : Nibble) (hs : s.status = .run) (hw : s.keyWait = true) :
    keyPress k s = { s.setV s.keyWaitReg (keyByte k) with keyWait := false } :=
  if_pos ⟨hs, hw⟩

/-- A KeyPress without a wait does nothing (R107). -/
theorem keyPress_of_no_wait {s : State} (k : Nibble) (hw : s.keyWait = false) : keyPress k s = s :=
  if_neg (by simp [hw])

/-- A key is delivered as its own number (R107). -/
theorem toNat_keyByte (k : Nibble) : (keyByte k).toNat = k.toNat := by
  rw [keyByte, BitVec.toNat_setWidth]
  omega

/-- Every register but the one written keeps its value. -/
theorem sameRegsBut_setV (s : State) (x : Reg) (b : Byte) : SameRegsBut [x] s (s.setV x b) := by
  intro r hr
  rw [v_setV, if_neg (by simpa using hr)]

/-- Settles O57: each event's own rule, on the state with that event taken. -/
theorem otherHostEvents : Obligations.OtherHostEvents := by
  intro s rest hs
  refine ⟨fun m he => step_of_event he, fun he => (step_of_event he).trans ?_,
    fun k he hw => (step_of_event he).trans ?_, fun k he hw => ?_⟩
  · exact congrArg Host.Outcome.next (if_pos hs)
  · exact congrArg Host.Outcome.next (keyPress_of_no_wait k hw)
  · refine ⟨_, (step_of_event he).trans (congrArg Host.Outcome.next (keyPress_of_wait k hs hw)), ?_, ?_, rfl⟩
    · rw [← toNat_keyByte k]
      exact congrArg BitVec.toNat ((v_setV s s.keyWaitReg s.keyWaitReg (keyByte k)).trans (if_pos rfl))
    · exact sameRegsBut_setV s s.keyWaitReg (keyByte k)

/-! ### While a wait is pending (R101, R107, R289) -/

/-- In a wait a step is the KeyPress that ends it, or changes timers, redraw, held keys and coming events only, and
redraw only by a RedrawAck. -/
theorem step_in_wait {s t : State} (hs : s.status = .run) (hw : s.keyWait = true) (h : step s = .next t) :
    (∃ k rest, s.events = .keyPress k :: rest ∧
      t = { s.setV s.keyWaitReg (keyByte k) with keyWait := false, events := rest }) ∨
    (t = { s with DT := t.DT, ST := t.ST, redraw := t.redraw, keys := t.keys, events := t.events } ∧
      ((∀ rest, s.events ≠ .redrawAck :: rest) → t.redraw = s.redraw)) := by
  cases he : s.events with
  | nil =>
    rw [step_no_event_of_not_enabled (.inr hw) he] at h
    cases h
    exact .inr ⟨rfl, fun _ => rfl⟩
  | cons e rest =>
    cases e with
    | step r =>
      rw [step_stepEvent_of_not_enabled (.inr hw) he] at h
      cases h
      exact .inr ⟨rfl, fun _ => rfl⟩
    | keyPress k =>
      rw [step_of_event he] at h
      cases h
      exact .inl ⟨k, rest, rfl, keyPress_of_wait k hs hw⟩
    | delayTick =>
      rw [step_of_event he, handleEvent, delayTick_eq] at h
      cases h
      exact .inr ⟨rfl, fun _ => rfl⟩
    | soundTick =>
      rw [step_of_event he, handleEvent, soundTick_eq] at h
      cases h
      exact .inr ⟨rfl, fun _ => rfl⟩
    | setKeys m =>
      rw [step_of_event he] at h
      cases h
      exact .inr ⟨rfl, fun _ => rfl⟩
    | redrawAck =>
      rw [step_of_event he, handleEvent, redrawAck_eq] at h
      cases h
      exact .inr ⟨rfl, fun hno => absurd rfl (hno rest)⟩

/-- Settles O55: read off what a step in a wait can do. -/
theorem waitHoldsExecution : Obligations.WaitHoldsExecution := by
  intro s t hs hw h
  rcases step_in_wait hs hw h with ⟨k, rest, he, rfl⟩ | ⟨ht, hredraw⟩
  · exact ⟨rfl, rfl, fun _ => rfl, ⟨rfl, fun _ => rfl⟩, hs, fun _ => rfl, fun _ => rfl,
      sameRegsBut_setV s s.keyWaitReg (keyByte k), fun hno => absurd he (hno k rest), fun _ => ⟨k, rest, he⟩⟩
  · rw [ht]
    exact ⟨rfl, rfl, fun _ => rfl, ⟨rfl, fun _ => rfl⟩, hs, fun _ => rfl, hredraw, fun _ _ => rfl,
      fun _ _ _ => rfl, fun hend => absurd hw (ne_true_of_eq_false hend)⟩

/-! ### Timer ticks (R26, R105, R106) -/

/-- A timer lowered by k, never below zero. -/
def lowered (b : Byte) (k : Nat) : Byte := BitVec.ofNat 8 (b.toNat - k)

theorem toNat_lowered (b : Byte) (k : Nat) : (lowered b k).toNat = b.toNat - k := by
  have hb := b.isLt
  rw [lowered, BitVec.toNat_ofNat]
  omega

theorem lowered_zero (b : Byte) : lowered b 0 = b :=
  BitVec.eq_of_toNat_eq (toNat_lowered b 0)

/-- Lowering once more is the test and decrement of a tick (R105, R106). -/
theorem lowered_succ (b : Byte) (k : Nat) :
    lowered b (k + 1) = if (lowered b k).toNat > 0 then lowered b k - 1 else lowered b k := by
  apply BitVec.eq_of_toNat_eq
  split
  next h =>
    rw [BitVec.toNat_sub_of_le (show 1 ≤ lowered b k from h), toNat_lowered, toNat_lowered]
    rfl
  next h =>
    rw [toNat_lowered] at h ⊢
    rw [toNat_lowered]
    omega

/-- A running state after k DelayTicks, with the events still coming. -/
def afterDelayTicks (s : State) (k : Nat) (es : List Event) : State := { s with DT := lowered s.DT k, events := es }

/-- A running state after k SoundTicks, with the events still coming. -/
def afterSoundTicks (s : State) (k : Nat) (es : List Event) : State := { s with ST := lowered s.ST k, events := es }

theorem afterDelayTicks_zero (s : State) : afterDelayTicks s 0 s.events = s := by
  rw [afterDelayTicks, lowered_zero]

theorem step_afterDelayTicks {s : State} (hs : s.status = .run) (k : Nat) (es : List Event) :
    step (afterDelayTicks s k (.delayTick :: es)) = .next (afterDelayTicks s (k + 1) es) := by
  have htick : delayTick (afterDelayTicks s k es) = afterDelayTicks s (k + 1) es := by
    simp only [delayTick, afterDelayTicks, lowered_succ, hs, true_and]
    split <;> rfl
  calc step (afterDelayTicks s k (.delayTick :: es))
    _ = handleEvent .delayTick (afterDelayTicks s k es) := step_of_event rfl
    _ = .next (afterDelayTicks s (k + 1) es) := congrArg Host.Outcome.next htick

theorem afterSoundTicks_zero (s : State) : afterSoundTicks s 0 s.events = s := by
  rw [afterSoundTicks, lowered_zero]

theorem step_afterSoundTicks {s : State} (hs : s.status = .run) (k : Nat) (es : List Event) :
    step (afterSoundTicks s k (.soundTick :: es)) = .next (afterSoundTicks s (k + 1) es) := by
  have htick : soundTick (afterSoundTicks s k es) = afterSoundTicks s (k + 1) es := by
    simp only [soundTick, afterSoundTicks, lowered_succ, hs, true_and]
    split <;> rfl
  calc step (afterSoundTicks s k (.soundTick :: es))
    _ = handleEvent .soundTick (afterSoundTicks s k es) := step_of_event rfl
    _ = .next (afterSoundTicks s (k + 1) es) := congrArg Host.Outcome.next htick

/-- A run of n + 1 steps goes on from where its first step leads. -/
theorem run_succ {s t : State} {n : Nat} (h : step s = .next t) :
    Sys2Proof.core.run (n + 1) s = Sys2Proof.core.run n t := by
  have hstep : Sys2Proof.core.step s = .next t := h
  simp only [Host.Core.run, hstep]

/-- A run of n equal events goes through the states that one such event each leads to. -/
theorem run_replicate {e : Event} {after : Nat → List Event → State}
    (hstep : ∀ k es, step (after k (e :: es)) = .next (after (k + 1) es)) (n k : Nat) (rest : List Event) :
    Sys2Proof.core.run n (after k (List.replicate n e ++ rest)) = .next (after (k + n) rest) := by
  induction n generalizing k with
  | zero => rfl
  | succ n ih =>
    rw [List.replicate_succ, List.cons_append, run_succ (hstep k _), ih, Nat.succ_add_eq_add_succ]

/-- Settles O56: each tick lowers its timer once more, and n of them in a run lower it by n. -/
theorem ticksCountDownToZero : Obligations.TicksCountDownToZero := by
  intro n s rest hs
  constructor
  · intro he
    have hrun := run_replicate (step_afterDelayTicks hs) n 0 rest
    rw [← he, afterDelayTicks_zero, Nat.zero_add] at hrun
    exact ⟨_, hrun, toNat_lowered s.DT n, rfl⟩
  · intro he
    have hrun := run_replicate (step_afterSoundTicks hs) n 0 rest
    rw [← he, afterSoundTicks_zero, Nat.zero_add] at hrun
    exact ⟨_, hrun, toNat_lowered s.ST n, rfl⟩

end Sys2Proof.Machine
end

section
/-! PROOFS. Control transfer (spec/41_flow.md R120 to R127). -/

namespace Sys2Proof.Machine

/-! ### What a change of pc and the call stack leaves as it was -/

/-- A state that differs from `s` in pc and the call stack only: R37's frame of CALL and RET. -/
theorem frame_of_flow_only {s t : State} (h : t = { s with pc := t.pc, stack := t.stack, sp := t.sp }) :
    t.I = s.I ∧ SameRegsBut [] s t ∧ SameMemory s t ∧ SameTimers s t ∧ SameScreen s t ∧ SameControl s t ∧
      SameHost s t := by
  rw [h]
  exact ⟨rfl, fun _ _ => rfl, fun _ => rfl, ⟨rfl, rfl⟩, ⟨fun _ => rfl, rfl⟩, ⟨rfl, rfl, rfl, rfl⟩,
    ⟨rfl, rfl, rfl, rfl, rfl, rfl⟩⟩

/-- A jump changes pc only (R23). -/
theorem frame_of_jump (s : State) (w : Word) :
    (s.advance.jump w).I = s.I ∧ SameMemory s (s.advance.jump w) ∧ SameRest [] s (s.advance.jump w) := by
  obtain ⟨hI, hregs, hmem, hrest⟩ := frame_of_flow_only (s := s) (t := s.advance.jump w) rfl
  exact ⟨hI, hmem, hregs, ⟨rfl, fun _ => rfl⟩, hrest⟩

/-! ### Jumps (R121, R127) -/

/-- A 12-bit target keeps its value as an address (R10). -/
theorem toNat_target16 (nnn : Addr12) : (target16 nnn).toNat = nnn.toNat :=
  BitVec.toNat_setWidth_of_le (by decide)

/-- A byte keeps its value as a 16-bit word (R10). -/
theorem toNat_zext16 (b : Byte) : (zext16 b).toNat = b.toNat :=
  BitVec.toNat_setWidth_of_le (by decide)

/-- The sum of a jump with offset stays below 65536, so that no bit of it is lost (R127; decision D1). -/
theorem toNat_target16_add_zext16 (nnn : Addr12) (b : Byte) :
    (target16 nnn + zext16 b).toNat = nnn.toNat + b.toNat := by
  have hn := nnn.isLt
  have hb := b.isLt
  rw [BitVec.toNat_add, toNat_target16, toNat_zext16, Nat.mod_eq_of_lt (by omega)]

/-- The register index in BNNN, as a quotient of nnn (R73, R127). -/
theorem highNibble_eq (nnn : Addr12) : highNibble nnn = BitVec.ofNat 4 (nnn.toNat / 256) :=
  congrArg (BitVec.ofNat 4) (Nat.shiftRight_eq_div_pow nnn.toNat 8)

/-- Settles O27: the effect is a jump to the target. -/
theorem jumpGoesToItsTarget : Obligations.JumpGoesToItsTarget := by
  intro s nnn
  exact ⟨_, rfl, toNat_target16 nnn, frame_of_jump s _⟩

/-- Settles O28: the effect is a jump to the sum, which does not overflow. -/
theorem jumpOffsetAddsItsRegister : Obligations.JumpOffsetAddsItsRegister := by
  intro s nnn
  rw [← highNibble_eq]
  exact ⟨_, rfl, toNat_target16_add_zext16 nnn _, frame_of_jump s _⟩

/-! ### The call stack (R24, R120, R122) -/

/-- A CALL with a free slot writes the address of the next instruction to slot sp, and no other slot (R122). -/
theorem effect_call_slot (s : State) (nnn : Addr12) (h : s.sp < s.cfg.stackDepth.slots) (k : Nat) :
    (effect (.call nnn) s).slot k = if k = s.sp then s.pc + 2 else s.slot k :=
  slot_push s.advance s.advance.pc k (h.trans_le (stackDepth_slots_le s.cfg.stackDepth))

/-- Settles O29: the free slot lets CALL have its effect, a push and a jump. -/
theorem callPushesTheReturnAddress : Obligations.CallPushesTheReturnAddress := by
  intro s nnn h
  refine ⟨_, exec_effect (.call nnn) s h, toNat_target16 nnn, rfl, ?_, fun k hk => ?_, frame_of_flow_only rfl⟩
  · rw [effect_call_slot s nnn h, if_pos rfl]
  · rw [effect_call_slot s nnn h, if_neg hk]

/-- Settles O30: the occupied slot lets RET have its effect, a pop into pc. -/
theorem returnPopsTheTopSlot : Obligations.ReturnPopsTheTopSlot := by
  intro s h
  exact ⟨_, exec_effect .ret s h.ne', rfl, rfl, fun _ => rfl, frame_of_flow_only rfl⟩

/-- Settles O31: the slot RET pops is the one CALL pushed, whatever else changed in between. -/
theorem returnUndoesCall : Obligations.ReturnUndoesCall := by
  intro s nnn h
  refine ⟨_, exec_effect (.call nnn) s h, ?_⟩
  rintro u ⟨hsp, hslot⟩
  have hsp : u.sp = s.sp + 1 := hsp
  obtain ⟨v, hv, hvsp, hvpc, -⟩ := returnPopsTheTopSlot u (by omega)
  have htop : u.sp - 1 = s.sp := by omega
  refine ⟨v, hv, ?_, hvsp.trans htop⟩
  calc v.pc
    _ = u.slot s.sp := by rw [hvpc, htop]
    _ = s.pc + 2 := by rw [hslot, effect_call_slot s nnn h, if_pos rfl]

/-! ### Skips (R104, R123 to R126) -/

/-- A skip after the fetch advance changes pc only: past one word more when it is taken (R102, R104). -/
theorem advance_skipIf (s : State) (c : Bool) :
    s.advance.skipIf c = { s with pc := if c then s.pc + 4 else s.pc + 2 } := by
  have hpc : s.pc + 2 + 2 = s.pc + 4 := BitVec.add_assoc s.pc 2 2
  rw [skipIf_eq, advance_pc, hpc]
  rfl

/-- A skip on equality. -/
theorem advance_skipIf_beq (s : State) (a b : Byte) :
    s.advance.skipIf (a == b) = { s with pc := if a = b then s.pc + 4 else s.pc + 2 } := by
  simp only [advance_skipIf, beq_iff_eq]

/-- A skip on difference is taken where the skip on equality is not. -/
theorem advance_skipIf_bne (s : State) (a b : Byte) :
    s.advance.skipIf (a != b) = { s with pc := if a = b then s.pc + 2 else s.pc + 4 } := by
  simp only [advance_skipIf, bne_iff_ne, ite_not]

/-- Settles O32: the two skips, on the register and the immediate. -/
theorem skipComparesWithImmediate : Obligations.SkipComparesWithImmediate := by
  intro s x nn
  exact ⟨congrArg Host.Outcome.next (advance_skipIf_beq s (s.v x) nn),
    congrArg Host.Outcome.next (advance_skipIf_bne s (s.v x) nn)⟩

/-- SE_REG moves pc past one word more when the two registers are equal (R125). -/
theorem exec_seReg (x y : Reg) (s : State) :
    exec (.seReg x y) s = .next { s with pc := if s.v x = s.v y then s.pc + 4 else s.pc + 2 } :=
  congrArg Host.Outcome.next (advance_skipIf_beq s (s.v x) (s.v y))

/-- SNE_REG moves pc past one word more when the two registers differ (R126). -/
theorem exec_sneReg (x y : Reg) (s : State) :
    exec (.sneReg x y) s = .next { s with pc := if s.v x = s.v y then s.pc + 2 else s.pc + 4 } :=
  congrArg Host.Outcome.next (advance_skipIf_bne s (s.v x) (s.v y))

/-- Settles O33: the two skips, on two registers or one; another low nibble is a residual row's encoding. -/
theorem skipComparesRegisters : Obligations.SkipComparesRegisters := by
  intro s x y
  refine ⟨exec_seReg x y s, exec_sneReg x y s, ?_, ?_, fun n hn => ⟨?_, ?_⟩⟩
  · rw [exec_seReg, if_pos rfl]
  · rw [exec_sneReg, if_pos rfl]
  · exact decodeWord_encode (.nop5 x y n) (bne_iff_ne.2 hn)
  · exact decodeWord_encode (.nop9 x y n) (bne_iff_ne.2 hn)

end Sys2Proof.Machine
end

section
/-! PROOFS. Register file and ALU (spec/42_alu.md R140 to R153). -/

namespace Sys2Proof.Machine

/-! ### What a register instruction leaves as it was -/

/-- A state that differs from `s` in the fetch advance and in registers only: R37's frame of the ALU. -/
theorem onlyRegsChange_of_regs_only {ds : List Reg} {s t : State} (h : t = { s.advance with regs := t.regs })
    (hregs : SameRegsBut ds s t) : OnlyRegsChange ds s t := by
  rw [h] at hregs ⊢
  exact ⟨rfl, rfl, fun _ => rfl, hregs, ⟨rfl, fun _ => rfl⟩, ⟨rfl, rfl⟩, ⟨fun _ => rfl, rfl⟩, ⟨rfl, rfl, rfl, rfl⟩,
    rfl, rfl, rfl, rfl, rfl, rfl⟩

/-! ### An instruction that writes its named register only (R142 to R144, R153) -/

theorem setV_v_self (s : State) (x : Reg) (b : Byte) : (s.setV x b).v x = b :=
  (v_setV s x x b).trans (if_pos rfl)

theorem onlyRegsChange_setV (s : State) (x : Reg) (b : Byte) : OnlyRegsChange [x] s (s.advance.setV x b) :=
  onlyRegsChange_of_regs_only rfl (sameRegsBut_setV s x b)

/-- Settles O34: both loads are one write of the named register. -/
theorem loadsWriteTheNamedRegister : Obligations.LoadsWriteTheNamedRegister := by
  intro s x y nn
  exact ⟨⟨_, rfl, setV_v_self _ x _, onlyRegsChange_setV s x _⟩, ⟨_, rfl, setV_v_self _ x _, onlyRegsChange_setV s x _⟩⟩

/-- ADD_IMM writes the wrapped sum (R143). -/
theorem exec_addImm (x : Reg) (nn : Byte) (s : State) :
    exec (.addImm x nn) s = .next (s.advance.setV x (s.v x + nn)) := rfl

/-- The byte 256 - nn mod 256 is the negation of nn. -/
theorem ofNat_256_sub (nn : Byte) : BitVec.ofNat 8 ((256 - nn.toNat) % 256) = -nn := by
  apply BitVec.eq_of_toNat_eq
  rw [BitVec.toNat_neg, BitVec.toNat_ofNat, Nat.mod_mod]

/-- Settles O35: the second addition adds the negation of what the first one added. -/
theorem addImmediateWraps : Obligations.AddImmediateWraps := by
  intro s x nn
  refine ⟨_, exec_addImm x nn s, ?_, onlyRegsChange_setV s x _, _, exec_addImm x _ _, ?_⟩
  · rw [setV_v_self, BitVec.toNat_add]
  · rw [setV_v_self, setV_v_self, ofNat_256_sub, add_neg_cancel_right]

/-- RND writes the masked random byte of its Step (R153). -/
theorem exec_rnd (x : Reg) (nn : Byte) (s : State) :
    exec (.rnd x nn) s = .next (s.advance.setV x (s.rand8 &&& nn)) := rfl

/-- Settles O40: the Step event's byte is the random byte of the state that RND runs in. -/
theorem randomByteIsMasked : Obligations.RandomByteIsMasked := by
  intro s x nn
  refine ⟨⟨_, exec_rnd x nn s, setV_v_self _ x _, ?_, onlyRegsChange_setV s x _⟩, ?_⟩
  · rintro rfl
    exact (setV_v_self _ x _).trans BitVec.and_zero
  · intro r rest hs hw hpc he hdec
    obtain ⟨-, hstep⟩ := stepRunsTheDecodedInstruction s (.rnd x nn) hs hw hpc rfl hdec
    exact ⟨_, (hstep r rest he).trans (exec_rnd x nn _), setV_v_self _ x _⟩

/-! ### An instruction that writes a result, then a flag (R141) -/

section Flagged
variable (s : State) (x : Reg) (b : Byte) (f : Bool)

theorem setVWithFlag_v_of_ne (hx : x ≠ VF) : (s.setVWithFlag x b f).v x = b := by
  rw [setVWithFlag_v, if_neg hx, if_pos rfl]

theorem setVWithFlag_v_flag : (s.setVWithFlag x b f).v VF = flagByte f := by
  rw [setVWithFlag_v, if_pos rfl]

theorem onlyRegsChange_setVWithFlag : OnlyRegsChange [x, VF] s (s.advance.setVWithFlag x b f) := by
  refine onlyRegsChange_of_regs_only rfl fun r hr => ?_
  obtain ⟨hx, hf⟩ : r ≠ x ∧ r ≠ VF := by simpa using hr
  rw [setVWithFlag_v, if_neg hf, if_neg hx, advance_v]

end Flagged

/-! ### Logic operations (R145 to R147) -/

/-- Without the quirk the flag reset does nothing. -/
theorem resetFlagOnLogic_of_off {s : State} (h : s.cfg.resetFlagOnLogicOps = false) : s.resetFlagOnLogic = s :=
  if_neg (by simp [h])

/-- Under the quirk a logic result is written as a result whose flag is 0. -/
theorem setV_resetFlagOnLogic_of_on {s : State} (h : s.cfg.resetFlagOnLogicOps = true) (x : Reg) (b : Byte) :
    (s.setV x b).resetFlagOnLogic = s.setVWithFlag x b false :=
  if_pos h

/-- Settles O36: one argument for the three operations, by the quirk. -/
theorem logicOpsAndTheirFlagReset : Obligations.LogicOpsAndTheirFlagReset := by
  intro s x y p hp
  have hexec : exec p.1 s = .next (s.advance.setV x p.2).resetFlagOnLogic := by
    simp only [List.mem_cons, List.not_mem_nil, or_false] at hp
    rcases hp with rfl | rfl | rfl <;> rfl
  refine ⟨_, hexec, fun hoff => ?_, fun hon => ?_⟩
  · rw [resetFlagOnLogic_of_off (s := s.advance.setV x p.2) hoff]
    exact ⟨setV_v_self _ x _, onlyRegsChange_setV s x _⟩
  · rw [setV_resetFlagOnLogic_of_on (s := s.advance) hon]
    exact ⟨setVWithFlag_v_flag _ x _ _, setVWithFlag_v_of_ne _ x _ _, onlyRegsChange_setVWithFlag s x _ _⟩

/-! ### Addition and subtraction (R148 to R150) -/

theorem flagByte_carryFlag (a b : Byte) : flagByte (carryFlag a b) = if a.toNat + b.toNat > 255 then 1 else 0 := by
  simp only [flagByte, carryFlag, decide_eq_true_eq]

theorem flagByte_noBorrowFlag (a b : Byte) : flagByte (noBorrowFlag a b) = if b.toNat > a.toNat then 0 else 1 := by
  simp only [flagByte, noBorrowFlag, Bool.not_eq_true', decide_eq_false_iff_not, ite_not]

/-- The difference of two bytes is that of the integers mod 256. -/
theorem toNat_sub_eq_emod (a b : Byte) : ((a - b).toNat : Int) = (a.toNat - b.toNat : Int) % 256 := by
  have hb := b.isLt
  rw [BitVec.toNat_sub]
  omega

/-- Settles O37: a result and its carry. -/
theorem addRegistersSetsCarry : Obligations.AddRegistersSetsCarry := by
  intro s x y
  refine ⟨_, rfl, fun hx => ?_, ?_, onlyRegsChange_setVWithFlag s x _ _⟩
  · rw [setVWithFlag_v_of_ne _ _ _ _ hx, BitVec.toNat_add]
  · rw [setVWithFlag_v_flag, flagByte_carryFlag]

/-- A difference written with its flag has the value and the flag that R149 and R150 give it. -/
theorem difference_written (s : State) (x : Reg) (a b : Byte) :
    (x ≠ VF → (((s.advance.setVWithFlag x (a - b) (noBorrowFlag a b)).v x).toNat : Int)
      = (a.toNat - b.toNat : Int) % 256) ∧
    (s.advance.setVWithFlag x (a - b) (noBorrowFlag a b)).v VF = (if b.toNat > a.toNat then 0 else 1) ∧
    OnlyRegsChange [x, VF] s (s.advance.setVWithFlag x (a - b) (noBorrowFlag a b)) := by
  refine ⟨fun hx => ?_, ?_, onlyRegsChange_setVWithFlag s x _ _⟩
  · rw [setVWithFlag_v_of_ne _ _ _ _ hx, toNat_sub_eq_emod]
  · rw [setVWithFlag_v_flag, flagByte_noBorrowFlag]

/-- Settles O38: SUB and SUBN write the same difference, of the operands in either order. -/
theorem subtractionsSetNotBorrow : Obligations.SubtractionsSetNotBorrow := by
  intro s x y
  exact ⟨⟨_, rfl, difference_written s x (s.v x) (s.v y)⟩, ⟨_, rfl, difference_written s x (s.v y) (s.v x)⟩⟩

/-! ### Shifts (R151, R152) -/

/-- A flag that is one bit of a byte has that bit's value. -/
theorem toNat_flagByte_getLsbD (a : Byte) (i : Nat) : (flagByte (a.getLsbD i)).toNat = a.toNat / 2 ^ i % 2 := by
  have hflag (f : Bool) : (flagByte f).toNat = f.toNat := by cases f <;> rfl
  rw [hflag, BitVec.getLsbD, Nat.toNat_testBit]

theorem toNat_lowBitFlag (a : Byte) : (flagByte (lowBitFlag a)).toNat = a.toNat % 2 := by
  rw [lowBitFlag, toNat_flagByte_getLsbD, pow_zero, Nat.div_one]

theorem toNat_highBitFlag (a : Byte) : (flagByte (highBitFlag a)).toNat = a.toNat / 128 := by
  have ha := a.isLt
  rw [highBitFlag, toNat_flagByte_getLsbD]
  omega

/-- Settles O39: a result and the bit shifted out, of the configured source. -/
theorem shiftsMoveOneBitOut : Obligations.ShiftsMoveOneBitOut := by
  intro s x y src hsrc
  obtain rfl : src = shiftSource s x y := hsrc
  refine ⟨⟨_, rfl, fun hx => ?_, ?_, onlyRegsChange_setVWithFlag s x _ _⟩,
    ⟨_, rfl, fun hx => ?_, ?_, onlyRegsChange_setVWithFlag s x _ _⟩⟩
  · rw [setVWithFlag_v_of_ne _ _ _ _ hx, BitVec.toNat_ushiftRight, Nat.shiftRight_eq_div_pow, pow_one]
  · rw [setVWithFlag_v_flag, toNat_lowBitFlag]
  · rw [setVWithFlag_v_of_ne _ _ _ _ hx, BitVec.toNat_shiftLeft, Nat.shiftLeft_eq, pow_one]
  · rw [setVWithFlag_v_flag, toNat_highBitFlag]

end Sys2Proof.Machine
end

section
/-! PROOFS. Index register and memory instructions (spec/43_index_memory.md R170 to R175). -/

namespace Sys2Proof.Machine

/-! ### An access above 0xFFF (R192, R253) -/

/-- An instruction whose range leaves memory takes an address fault, with no other effect (R253, R256). -/
theorem exec_range_out {i : Instr} {s : State} (he : ¬errorFree i s)
    (hr : raisedError i s = (.addressFault, max s.I.toNat 0x1000)) :
    exec i s = .next (faultState s .addressFault (max s.I.toNat 0x1000)) := by
  rw [exec_raisedError i s he, hr]
  exact raise_fatal _ _ _ rfl

/-- Settles O16: each of the four ranges is what its instruction must have in memory to raise no error. -/
theorem accessAboveMemoryFaults : Obligations.AccessAboveMemoryFaults := by
  intro s x y n
  refine ⟨fun h => exec_range_out (show ¬(s.I.toNat + 3 ≤ 0x1000) by omega) rfl, fun h => ?_, fun hn h => ?_⟩
  · have hout : ¬(s.I.toNat + (x.toNat + 1) ≤ 0x1000) := by omega
    exact ⟨exec_range_out hout rfl, exec_range_out hout rfl⟩
  · have hpos : n.toNat ≠ 0 := fun h0 => hn (BitVec.eq_of_toNat_eq h0)
    exact exec_range_out (show ¬(n.toNat = 0 ∨ s.I.toNat + n.toNat ≤ 0x1000) by omega) rfl

/-! ### What the index and memory instructions leave as it was (R37) -/

/-- A state that differs from `s` in registers, I, pc and memory only: R37's frame of these instructions. -/
theorem frame_of_index_memory_only {s t : State} {regs : Vector Byte 16} {I pc : Word} {mem : Memory}
    (h : t = { s with regs := regs, I := I, pc := pc, mem := mem }) :
    SameStack s t ∧ SameTimers s t ∧ SameScreen s t ∧ SameControl s t ∧ SameHost s t := by
  rw [h]
  exact ⟨⟨rfl, fun _ => rfl⟩, ⟨rfl, rfl⟩, ⟨fun _ => rfl, rfl⟩, ⟨rfl, rfl, rfl, rfl⟩, rfl, rfl, rfl, rfl, rfl, rfl⟩

/-- The same frame, where the registers are unchanged too. -/
theorem sameRest_of_index_memory_only {s t : State} {I pc : Word} {mem : Memory}
    (h : t = { s with I := I, pc := pc, mem := mem }) : SameRest [] s t :=
  ⟨fun r _ => (congrArg (State.v · r) h :), frame_of_index_memory_only h⟩

/-! ### Writing I (R170 to R172) -/

/-- Five times a byte stays below 65536, so that no bit of a glyph's address is lost (R172). -/
theorem toNat_zext16_mul_five (b : Byte) : (zext16 b * 5).toNat = b.toNat * 5 := by
  have hb := b.isLt
  rw [BitVec.toNat_mul, toNat_zext16]
  exact Nat.mod_eq_of_lt (show b.toNat * 5 < 65536 by omega)

/-- Settles O41: both instructions write I and advance pc. -/
theorem indexLoads : Obligations.IndexLoads := by
  intro s nnn x
  exact ⟨⟨_, rfl, toNat_target16 nnn, rfl, fun _ => rfl, sameRest_of_index_memory_only rfl⟩,
    ⟨_, rfl, toNat_zext16_mul_five (s.v x), rfl, fun _ => rfl, sameRest_of_index_memory_only rfl⟩⟩

/-- ADD_INDEX writes I and the register file, where the flag may be set (R171). -/
theorem effect_addIndex_eq (x : Reg) (s : State) :
    effect (.addIndex x) s =
      { s with I := s.I + zext16 (s.v x), pc := s.pc + 2, regs := (effect (.addIndex x) s).regs } := by
  rw [effect, flagIndexOverflow_regs_only]; rfl

/-- The flag of ADD_INDEX: set by the new I under the quirk, and never cleared (R171; decision D10). -/
theorem effect_addIndex_flag (x : Reg) (s : State) :
    (effect (.addIndex x) s).v VF =
      if s.cfg.indexOverflowSetsVf = true ∧ (s.I + zext16 (s.v x)).toNat > 0xFFF then 1 else s.v VF := by
  rw [effect, flagIndexOverflow_v]
  simp only [and_true]
  rfl

/-- Settles O42: the 16-bit sum is the new I, which the flag is read off. -/
theorem addIndexAndItsFlag : Obligations.AddIndexAndItsFlag := by
  intro s x
  have heq := effect_addIndex_eq x s
  have hI : (effect (.addIndex x) s).I = s.I + zext16 (s.v x) := congrArg State.I heq
  refine ⟨_, exec_effect (.addIndex x) s trivial, ?_, ?_, congrArg State.pc heq,
    fun a => (congrArg (State.byte · a) heq :), fun r hr => ?_, frame_of_index_memory_only heq⟩
  · rw [hI, BitVec.toNat_add, toNat_zext16]
  · rw [hI, effect_addIndex_flag]
  · exact effect_v (.addIndex x) s r (by simpa [mayWriteReg] using fun _ => hr)

/-! ### Decimal digits (R173) -/

/-- The k-th of the bytes written from an address on is read k addresses after it. -/
theorem byte_writeBytes_add (s : State) (base k : Nat) (bs : List Byte) (hk : k < bs.length) :
    (s.writeBytes base bs).byte (base + k) = bs[k] := by
  rw [byte_writeBytes, dif_pos (by omega)]
  simp only [Nat.add_sub_cancel_left]

/-- The digits are those of the byte's value: each is small enough for the byte that holds it. -/
theorem toNat_decimalDigits (b : Byte) :
    (decimalDigits b).map BitVec.toNat = [b.toNat / 100, b.toNat / 10 % 10, b.toNat % 10] := by
  have hb := b.isLt
  simp only [decimalDigits, List.map, BitVec.toNat_ofNat, List.cons.injEq, and_true]
  omega

/-- LD_BCD writes memory and advances pc (R173). -/
theorem effect_ldBcd_eq (x : Reg) (s : State) :
    effect (.ldBcd x) s = { s with pc := s.pc + 2, mem := (effect (.ldBcd x) s).mem } := by
  rw [effect, writeBytes_eq]; rfl

/-- LD_BCD stores the k-th decimal digit k addresses after I (R173). -/
theorem toNat_byte_effect_ldBcd (x : Reg) (s : State) (k : Nat) (hk : k < 3) :
    ((effect (.ldBcd x) s).byte (s.I.toNat + k)).toNat =
      [(s.v x).toNat / 100, (s.v x).toNat / 10 % 10, (s.v x).toNat % 10][k] := by
  simp only [← toNat_decimalDigits, List.getElem_map]
  exact congrArg BitVec.toNat (byte_writeBytes_add s.advance s.I.toNat k (decimalDigits (s.v x)) hk)

/-- Settles O43: the range is in memory, so the three digits are written. -/
theorem bcdStoresThreeDigits : Obligations.BcdStoresThreeDigits := by
  intro s x h
  have heq := effect_ldBcd_eq x s
  exact ⟨_, exec_effect (.ldBcd x) s (show s.I.toNat + 3 ≤ 0x1000 by omega),
    toNat_byte_effect_ldBcd x s 0 (by decide), toNat_byte_effect_ldBcd x s 1 (by decide),
    toNat_byte_effect_ldBcd x s 2 (by decide),
    fun a ha => (byte_writeBytes s.advance s.I.toNat a (decimalDigits (s.v x))).trans (dif_neg ha),
    (congrArg State.I heq :), congrArg State.pc heq, sameRest_of_index_memory_only heq⟩

/-! ### Blocks of registers (R174, R175) -/

/-- The index advance adds its count mod 65536 under the quirk (R174, R175; decision D4). -/
theorem toNat_advanceIndex_I (s : State) (n : Nat) :
    (s.advanceIndex n).I.toNat =
      if s.cfg.incrementIndexOnLoadStore then (s.I.toNat + n) % 65536 else s.I.toNat := by
  rw [advanceIndex_eq]
  simp only
  split
  · rw [BitVec.toNat_add, BitVec.toNat_ofNat, Nat.add_mod_mod]
  · rfl

/-- STORE_REGS writes memory, advances I by the quirk, and advances pc (R174). -/
theorem effect_storeRegs_eq (x : Reg) (s : State) :
    effect (.storeRegs x) s =
      { s with
        I := (s.advanceIndex (x.toNat + 1)).I, pc := s.pc + 2, mem := (effect (.storeRegs x) s).mem } := by
  rw [effect, advanceIndex_eq, advanceIndex_eq, storeRegs_eq]; rfl

/-- Settles O44: the range is in memory, so the block is stored. -/
theorem storeRegistersWritesTheBlock : Obligations.StoreRegistersWritesTheBlock := by
  intro s x h
  have heq := effect_storeRegs_eq x s
  refine ⟨_, exec_effect (.storeRegs x) s (show s.I.toNat + (x.toNat + 1) ≤ 0x1000 by omega), fun r hr => ?_,
    fun a ha => ?_, ?_, effect_storeRegs_pc s x, sameRest_of_index_memory_only heq⟩
  · rw [byte_effect_storeRegs, if_pos (by omega), Nat.add_sub_cancel_left, BitVec.ofNat_toNat, BitVec.setWidth_eq]
  · rw [byte_effect_storeRegs, if_neg ha]
  · exact (congrArg (BitVec.toNat ∘ State.I) heq).trans (toNat_advanceIndex_I s (x.toNat + 1))

/-- LOAD_REGS writes the register file, advances I by the quirk, and advances pc (R175). -/
theorem effect_loadRegs_eq (x : Reg) (s : State) :
    effect (.loadRegs x) s =
      { s with
        I := (s.advanceIndex (x.toNat + 1)).I, pc := s.pc + 2, regs := (effect (.loadRegs x) s).regs } := by
  rw [effect, advanceIndex_eq, advanceIndex_eq, loadRegs_eq]; rfl

/-- What LOAD_REGS makes of a register; the new I does not matter (R175). -/
theorem effect_loadRegs_v (x r : Reg) (s : State) :
    (effect (.loadRegs x) s).v r = if r.toNat ≤ x.toNat then s.byte (s.I.toNat + r.toNat) else s.v r := by
  have hx := x.isLt
  simp only [← Nat.lt_succ_iff]
  rw [effect, advanceIndex_eq]
  exact loadRegs_v s.advance _ _ (by omega) r

/-- Settles O45: the range is in memory, so the block is loaded. -/
theorem loadRegistersReadsTheBlock : Obligations.LoadRegistersReadsTheBlock := by
  intro s x h
  have heq := effect_loadRegs_eq x s
  refine ⟨_, exec_effect (.loadRegs x) s (show s.I.toNat + (x.toNat + 1) ≤ 0x1000 by omega),
    fun r => effect_loadRegs_v x r s, ?_, congrArg State.pc heq, fun a => (congrArg (State.byte · a) heq :),
    frame_of_index_memory_only heq⟩
  exact (congrArg (BitVec.toNat ∘ State.I) heq).trans (toNat_advanceIndex_I s (x.toNat + 1))

end Sys2Proof.Machine
end

section
/-! PROOFS. The framebuffer (spec/44_display.md R191, R192). -/

namespace Sys2Proof.Machine

/-! ### What CLS and DRW leave as it was (R37) -/

/-- A state that differs from `s` in registers, pc, framebuffer and redraw only: R37's frame of CLS and DRW. -/
theorem frame_of_screen_only {s t : State} {regs : Vector Byte 16} {pc : Word} {fb : Framebuffer} {redraw : Bool}
    (h : t = { s with regs := regs, pc := pc, fb := fb, redraw := redraw }) :
    SameMemory s t ∧ SameStack s t ∧ SameTimers s t ∧ SameControl s t ∧ SameHost s t := by
  rw [h]
  exact ⟨fun _ => rfl, ⟨rfl, fun _ => rfl⟩, ⟨rfl, rfl⟩, ⟨rfl, rfl, rfl, rfl⟩, rfl, rfl, rfl, rfl, rfl, rfl⟩

/-- Settles O48: the cleared framebuffer does not depend on the old one. -/
theorem clearScreenTurnsAllPixelsOff : Obligations.ClearScreenTurnsAllPixelsOff := by
  intro s
  exact ⟨_, rfl, pixel_blank, rfl, rfl, rfl, fun _ _ => rfl, frame_of_screen_only rfl⟩

/-! ### One draw (R192) -/

theorem flagByte_eq_one_iff (f : Bool) : flagByte f = 1 ↔ f = true := by cases f <;> decide

section Draw
variable (x y : Reg) (n : Nibble) (s : State)

/-- A sprite in range is drawn (R192, R253). -/
theorem exec_drw_in (h : n = 0 ∨ s.I.toNat + n.toNat - 1 ≤ 0xFFF) :
    exec (.drw x y n) s = .next (effect (.drw x y n) s) := by
  refine exec_effect (.drw x y n) s ?_
  rcases h with rfl | h
  · exact .inl rfl
  · exact .inr (by omega)

/-- DRW toggles the pixels of its sprite, each once (R192). -/
theorem effect_drw_pixelOn (p : Pixel) :
    (effect (.drw x y n) s).pixelOn p = (s.pixelOn p ^^ decide (p ∈ spriteOf x y n s)) :=
  (drawPixels_spec s.fb (spriteOf x y n s) (nodup_spriteOf x y n s)).1 p

/-- A draw collides when a covered pixel was on (R192). -/
theorem drawPixels_collision_iff :
    (drawPixels s.fb (spriteOf x y n s)).2 = true ↔ ∃ p, SpriteCovers x y n s p ∧ s.pixelOn p = true := by
  simp only [← mem_spriteOf]
  exact (drawPixels_spec s.fb (spriteOf x y n s) (nodup_spriteOf x y n s)).2

/-- DRW writes its collision to VF (R192). -/
theorem effect_drw_flag : (effect (.drw x y n) s).v VF = flagByte (drawPixels s.fb (spriteOf x y n s)).2 :=
  setV_v_self _ VF _

/-- The flag of a draw is 1 exactly when a covered pixel was on (R192). -/
theorem effect_drw_flag_eq_one_iff :
    (effect (.drw x y n) s).v VF = 1 ↔ ∃ p, SpriteCovers x y n s p ∧ s.pixelOn p = true := by
  rw [effect_drw_flag, flagByte_eq_one_iff, drawPixels_collision_iff]

/-- A draw that leaves V[x] and V[y] as they were is followed by the same sprite at the same place. -/
theorem spriteOf_effect_drw (hx : (effect (.drw x y n) s).v x = s.v x) (hy : (effect (.drw x y n) s).v y = s.v y) :
    spriteOf x y n (effect (.drw x y n) s) = spriteOf x y n s := by
  unfold spriteOf
  rw [hx, hy]
  rfl

end Draw

/-- Settles O49: the covered pixels are those of the sprite, toggled once each; VF is the collision. -/
theorem drawTogglesTheCoveredPixels : Obligations.DrawTogglesTheCoveredPixels := by
  intro s x y n h
  refine ⟨_, exec_drw_in x y n s h, fun p hp => ?_, fun p hp => ?_, (effect_drw_flag_eq_one_iff x y n s).2,
    fun hnone => ?_, rfl, rfl, rfl, fun r hr => ?_, frame_of_screen_only rfl⟩
  · rw [effect_drw_pixelOn, decide_eq_true ((mem_spriteOf x y n s p).2 hp), Bool.xor_true]
  · rw [effect_drw_pixelOn, decide_eq_false (mt (mem_spriteOf x y n s p).1 hp), Bool.xor_false]
  · have hoff := Bool.eq_false_iff.2 (mt (drawPixels_collision_iff x y n s).1 hnone)
    rw [effect_drw_flag, hoff]
    rfl
  · exact effect_v (.drw x y n) s r (by simpa [mayWriteReg] using hr)

/-- Settles O50: the second draw toggles the same pixels, and collides on those the first one turned on. -/
theorem drawingTwiceRestoresTheScreen : Obligations.DrawingTwiceRestoresTheScreen := by
  intro s x y n h
  refine ⟨_, exec_drw_in x y n s h, fun hx hy => ?_⟩
  have hsame := spriteOf_effect_drw x y n s hx hy
  refine ⟨_, exec_drw_in x y n (effect (.drw x y n) s) h, fun p => ?_, ?_⟩
  · rw [effect_drw_pixelOn, effect_drw_pixelOn, hsame, Bool.xor_assoc, Bool.xor_self, Bool.xor_false]
  · rw [effect_drw_flag_eq_one_iff]
    refine exists_congr fun p => ?_
    rw [← mem_spriteOf, ← mem_spriteOf, hsame]
    refine and_congr_right fun hp => ?_
    rw [effect_drw_pixelOn, decide_eq_true hp, Bool.xor_true, Bool.not_eq_true']

end Sys2Proof.Machine
end

section
/-! PROOFS. Keypad and timer instructions (spec/45_input_timers.md R210 to R215). -/

namespace Sys2Proof.Machine

/-! ### The key wait (R107, R215) -/

/-- LD_VX_K begins the wait for its register (R215). -/
theorem exec_ldVxK (x : Reg) (s : State) :
    exec (.ldVxK x) s = .next { s with pc := s.pc + 2, keyWait := true, keyWaitReg := x } :=
  exec_effect (.ldVxK x) s trivial

/-- Settles O54: the state LD_VX_K leaves is in a wait for V[x], which the KeyPress ends as in any wait. -/
theorem keyWaitEndsWithKeyPress : Obligations.KeyWaitEndsWithKeyPress := by
  intro s x
  refine ⟨exec_ldVxK x s, fun k rest hs he => ?_⟩
  obtain ⟨-, -, -, hpress⟩ :=
    otherHostEvents { s with pc := s.pc + 2, keyWait := true, keyWaitReg := x } rest hs
  obtain ⟨u, hstep, hkey, hregs, hu⟩ := hpress k he rfl
  exact ⟨_, u, exec_ldVxK x s, hstep, hkey, hregs, hu⟩

/-! ### The key skips (R104, R210, R211, R254) -/

/-- An instruction whose error is no stack error takes it as a fault, with no other effect (R256). -/
theorem exec_fatal_error {i : Instr} {s : State} (he : ¬errorFree i s)
    (hk : (raisedError i s).1.isStackError = false) :
    exec i s = .next (faultState s (raisedError i s).1 (raisedError i s).2) :=
  (exec_raisedError i s he).trans (raise_fatal _ _ _ hk)

/-- Settles O17: V[x] above 15 names no key, which is the one error of both skips. -/
theorem keyIndexAboveFifteenFaults : Obligations.KeyIndexAboveFifteenFaults := by
  intro s x h
  have hout : ¬(s.v x).toNat ≤ 15 := Nat.not_le.2 h
  exact ⟨exec_fatal_error (i := .skp x) hout rfl, exec_fatal_error (i := .sknp x) hout rfl⟩

/-- A skip on the negation is taken where the skip itself is not. -/
theorem advance_skipIf_not (s : State) (c : Bool) :
    s.advance.skipIf (!c) = { s with pc := if c then s.pc + 2 else s.pc + 4 } := by
  rw [advance_skipIf]
  cases c <;> rfl

/-- Settles O51: V[x] names a key, so both skips have their effect, on that key held or not held. -/
theorem keySkipsReadTheHeldKeys : Obligations.KeySkipsReadTheHeldKeys := by
  intro s x h
  exact ⟨(exec_effect (.skp x) s h).trans (congrArg Host.Outcome.next (advance_skipIf s _)),
    (exec_effect (.sknp x) s h).trans (congrArg Host.Outcome.next (advance_skipIf_not s _))⟩

/-! ### The timers (R212 to R214) -/

/-- LD_VX_DT writes the delay timer to its register (R212). -/
theorem exec_ldVxDt (x : Reg) (s : State) : exec (.ldVxDt x) s = .next (s.advance.setV x s.DT) :=
  exec_effect (.ldVxDt x) s trivial

/-- LD_DT_VX writes its register to the delay timer (R213). -/
theorem exec_ldDtVx (x : Reg) (s : State) : exec (.ldDtVx x) s = .next { s.advance with DT := s.v x } :=
  exec_effect (.ldDtVx x) s trivial

/-- LD_ST_VX writes its register to the sound timer (R214). -/
theorem exec_ldStVx (x : Reg) (s : State) : exec (.ldStVx x) s = .next { s.advance with ST := s.v x } :=
  exec_effect (.ldStVx x) s trivial

/-- Sound is on exactly while the sound timer is not 0 (R111; decision D18). -/
theorem soundActive_iff (s : State) : s.soundActive = true ↔ s.ST ≠ 0 :=
  bne_iff_ne

/-- A state that differs from `s` in pc and the timers only: R37's frame of LD_DT_VX and LD_ST_VX. -/
theorem frame_of_timers_only {s t : State} {pc : Word} {DT ST : Byte}
    (h : t = { s with pc := pc, DT := DT, ST := ST }) :
    t.I = s.I ∧ SameRegsBut [] s t ∧ SameMemory s t ∧ SameStack s t ∧ SameScreen s t ∧ SameControl s t ∧
      SameHost s t := by
  rw [h]
  exact ⟨rfl, fun _ _ => rfl, fun _ => rfl, ⟨rfl, fun _ => rfl⟩, ⟨fun _ => rfl, rfl⟩, ⟨rfl, rfl, rfl, rfl⟩,
    rfl, rfl, rfl, rfl, rfl, rfl⟩

/-- Settles O52: the register written is DT, which after LD_DT_VX is V[y]. -/
theorem readDelayTimer : Obligations.ReadDelayTimer := by
  intro s x y
  exact ⟨⟨_, exec_ldVxDt x s, setV_v_self _ x _, onlyRegsChange_setV s x _⟩,
    ⟨_, _, exec_ldDtVx y s, exec_ldVxDt x _, setV_v_self _ x _⟩⟩

/-- Settles O53: each instruction writes its timer, and sound is read off the sound timer. -/
theorem setTimers : Obligations.SetTimers := by
  intro s x
  exact ⟨⟨_, exec_ldDtVx x s, rfl, rfl, rfl, frame_of_timers_only rfl⟩,
    ⟨_, exec_ldStVx x s, rfl, soundActive_iff _, rfl, rfl, frame_of_timers_only rfl⟩⟩

end Sys2Proof.Machine
end

section
/-! PROOFS. No-op words and HALT (spec/46_noop_halt.md R230 to R236). -/

namespace Sys2Proof.Machine

/-- The residual rows: each stands for the words that the named rows of its family leave (R74). -/
def isResidual : Instr → Bool
  | .sys _ | .nop5 _ _ _ | .nop8 _ _ _ | .nop9 _ _ _ | .nopE _ _ | .nopF _ _ => true
  | _ => false

/-- An instruction of a residual row has the fetch advance as its only effect (R230, R232 to R236). -/
theorem exec_of_isResidual {i : Instr} (hi : isResidual i = true) (s : State) :
    exec i s = .next { s with pc := s.pc + 2 } := by
  cases i with
  | sys nnn => exact exec_effect (.sys nnn) s trivial
  | nop5 x y n => exact exec_effect (.nop5 x y n) s trivial
  | nop8 x y n => exact exec_effect (.nop8 x y n) s trivial
  | nop9 x y n => exact exec_effect (.nop9 x y n) s trivial
  | nopE x nn => exact exec_effect (.nopE x nn) s trivial
  | nopF x nn => exact exec_effect (.nopF x nn) s trivial
  | _ => cases hi

/-- Settles O24: each row is residual, and a word that is none of the row's excluded words is its encoding. -/
theorem residualWordsAreNoOps : Obligations.ResidualWordsAreNoOps := by
  refine ⟨fun s nnn => exec_of_isResidual rfl s, fun s x y n => exec_of_isResidual rfl s,
    fun s x nn => exec_of_isResidual rfl s, fun s x nn => exec_of_isResidual rfl s,
    fun nnn hhalt hcls hret => ?_, fun x y n hn => ?_, fun x nn hnn => ?_, fun x nn hnn => ?_⟩
  · exact decodeWord_encode (.sys nnn) (by simpa [Instr.wf] using ⟨⟨hhalt, hcls⟩, hret⟩)
  · exact decodeWord_encode (.nop8 x y n) (by simpa [Instr.wf, or_assoc] using hn)
  · exact decodeWord_encode (.nopE x nn) (by simpa [Instr.wf] using hnn)
  · exact decodeWord_encode (.nopF x nn) (by simpa [Instr.wf, and_assoc] using hnn)

/-- Settles O25: both rows are residual; which words are theirs is said beside the skips of n = 0. -/
theorem familiesFiveAndNineResidualAreNoOps : Obligations.FamiliesFiveAndNineResidualAreNoOps := by
  intro s x y n
  obtain ⟨-, -, -, -, hwords⟩ := skipComparesRegisters s x y
  exact ⟨exec_of_isResidual rfl s, exec_of_isResidual rfl s, hwords n⟩

/-- Settles O26: HALT's effect sets the status, without the fetch advance (decision D5). -/
theorem haltStopsTheRun : Obligations.HaltStopsTheRun :=
  fun s => exec_effect .halt s trivial

end Sys2Proof.Machine
end

section
/-! PROOFS. Errors (spec/60_exceptions.md R250 to R260). -/

namespace Sys2Proof.Machine

/-! ### Entering FAULT (R250, R256, R260) -/

/-- No effect enters FAULT: HALT's sets status HALT, and no other effect writes the status (R37). -/
theorem effect_keeps_out_of_fault (i : Instr) {s : State} (hs : s.status ≠ .fault) :
    (effect i s).status ≠ .fault := by
  by_cases hi : i = .halt
  · subst hi
    exact fun h => Status.noConfusion h
  · rwa [effect_status i s hi]

/-- Settles O15: of an instruction's three answers, only the fatal error enters FAULT. -/
theorem faultsArePreciseAndNamed : Obligations.FaultsArePreciseAndNamed := by
  intro i s t hs h ht
  rcases exec_cases i s t h with ⟨-, rfl⟩ | ⟨-, k, info, hk, ⟨-, rfl⟩ | ⟨-, -, rfl⟩⟩
  · exact absurd ht (effect_keeps_out_of_fault i hs)
  · exact ⟨k, info, hk, rfl⟩
  · exact absurd ht hs

/-! ### Stack errors in the two modes (R250, R251, R252, R256, R257; decisions D7, D8) -/

/-- In fatal mode every error is a fatal entry (R250, R256). -/
theorem raise_of_fatal_mode (k : FaultKind) (info : Nat) {s : State} (hm : s.cfg.stackErrorMode = .fatal) :
    raise k info s = .next (faultState s k info) := by
  obtain ⟨t, ht⟩ := raise_next k info s
  rcases raise_cases k info s t ht with ⟨-, rfl⟩ | ⟨-, hignore, -⟩
  · exact ht
  · cases hm.symm.trans hignore

/-- In ignore mode a stack error is reported, and the instruction is a no-op (R250, R257). -/
theorem raise_of_ignore_mode {k : FaultKind} (hk : k.isStackError = true) (info : Nat) {s : State}
    (hm : s.cfg.stackErrorMode = .ignore) : raise k info s = .next (ignoredState s k) := by
  obtain ⟨t, ht⟩ := raise_next k info s
  rcases raise_cases k info s t ht with ⟨hfatal, -⟩ | ⟨-, -, rfl⟩
  · cases hm.symm.trans (hfatal hk)
  · exact ht

/-- A CALL with every slot occupied raises StackOverflow, recording sp (R122, R251). -/
theorem exec_call_full {s : State} (nnn : Addr12) (h : s.sp = s.cfg.stackDepth.slots) :
    exec (.call nnn) s = raise .stackOverflow s.sp s :=
  exec_raisedError (.call nnn) s h.not_lt

/-- A RET with no slot occupied raises StackUnderflow, recording sp (R120, R252). -/
theorem exec_ret_empty {s : State} (h : s.sp = 0) : exec .ret s = raise .stackUnderflow s.sp s :=
  exec_raisedError .ret s (not_not_intro h)

/-- Settles O20: the full stack and the empty one raise their errors, which each mode takes in its own way. -/
theorem stackErrorsLeaveThePreciseState : Obligations.StackErrorsLeaveThePreciseState := by
  intro s nnn
  refine ⟨fun h hm => ?_, fun h hm => ?_, fun h hm => ?_, fun h hm => ?_⟩
  · rw [exec_call_full nnn h, raise_of_fatal_mode _ _ hm]
  · rw [exec_call_full nnn h, raise_of_ignore_mode rfl _ hm]
  · rw [exec_ret_empty h, raise_of_fatal_mode _ _ hm, h]
  · rw [exec_ret_empty h, raise_of_ignore_mode rfl _ hm]

/-- A raised stack error is seen in both modes, keeps the stack, and moves pc to no place but the next
instruction (R251, R252). -/
theorem stackError_reported {k : FaultKind} (hk : k.isStackError = true) (info : Nat) (s : State) :
    ∃ t, raise k info s = .next t ∧ SameStack s t ∧
      (s.cfg.stackErrorMode = .fatal →
        t.status = .fault ∧ t.fault.map FaultRecord.kind = some k ∧ t.pc = s.pc) ∧
      (s.cfg.stackErrorMode = .ignore →
        t.status = s.status ∧ t.errors = s.errors ++ [k] ∧ t.pc = s.pc + 2) := by
  cases hm : s.cfg.stackErrorMode with
  | fatal => exact ⟨_, raise_of_fatal_mode k info hm, ⟨rfl, fun _ => rfl⟩, fun _ => ⟨rfl, rfl, rfl⟩, nofun⟩
  | ignore => exact ⟨_, raise_of_ignore_mode hk info hm, ⟨rfl, fun _ => rfl⟩, nofun, fun _ => ⟨rfl, rfl, rfl⟩⟩

/-- Settles O18: the full stack raises StackOverflow, which is reported in both modes. -/
theorem callOnFullStackIsReported : Obligations.CallOnFullStackIsReported := by
  intro s nnn h
  rw [exec_call_full nnn h]
  exact stackError_reported rfl s.sp s

/-- Settles O19: the empty stack raises StackUnderflow, which is reported in both modes. -/
theorem returnOnEmptyStackIsReported : Obligations.ReturnOnEmptyStackIsReported := by
  intro s h
  rw [exec_ret_empty h]
  exact stackError_reported rfl s.sp s

end Sys2Proof.Machine
end

section
/-! PROOFS. Init, the only reset, and the program load (spec/70_reset_and_hazards.md R280 to R282). -/

namespace Sys2Proof.Machine

/-- Init sets the configuration and seeds memory; everything else is as after reset (R36, R280). -/
theorem init_eq (program : List Byte) (cfg : Config) :
    State.init program cfg = { State.reset with cfg := cfg, mem := (State.init program cfg).mem } :=
  writeBytes_eq _ _ _

/-! ### The invariant at Init (R24, R30, R31, R50) -/

/-- A program that Init places is cut where memory ends, so the seeded memory is canonical (R50, R281). -/
theorem init_memory_wf (program : List Byte) (cfg : Config) : Memory.wf cfg (State.init program cfg).mem := by
  have hend : 0x200 + (program.take 0xE00).length ≤ 0x1000 := by
    have := List.length_take_le 0xE00 program
    omega
  have hwf := writeBytes_wf { State.reset with cfg := cfg } 0x200 (program.take 0xE00) ⟨.nil, nofun⟩ hend
  rwa [writeBytes_eq] at hwf

/-- Every stack slot is zero after reset (R36). -/
theorem reset_slot (k : Nat) : State.reset.slot k = 0 := by
  simp only [State.slot, State.reset, Vector.getElem?_replicate]
  split <;> rfl

/-- The state after reset meets the invariant under any configuration and any canonical memory. -/
theorem State.Inv.reset_with {cfg : Config} {mem : Memory} (hmem : Memory.wf cfg mem) :
    State.Inv { State.reset with cfg, mem } where
  memory := hmem
  depth := Nat.zero_le _
  unusedSlots k _ := reset_slot k
  record := resetMeetsInvariant.record
  precise _ h := nomatch h
  waiting := resetMeetsInvariant.waiting
  reported _ h := nomatch h

/-- Settles O13: Init is the reset state with a configuration and a canonical memory. -/
theorem initMeetsInvariant : Obligations.InitMeetsInvariant := by
  intro program cfg
  rw [init_eq]
  exact .reset_with (init_memory_wf program cfg)

/-! ### What Init places (R280, R281, R282; decisions D16, D27) -/

/-- What no cell lists reads as the font below 0x050 and as zero from there on (R36, R280). -/
theorem blankByte_eq (cfg : Config) (a : Nat) : blankByte cfg a = if h : a < 80 then cfg.font[a] else 0 := by
  rw [blankByte]
  split
  case isTrue h => rw [Vector.getElem?_eq_getElem h, Option.getD_some]
  case isFalse h => rw [Vector.getElem?_eq_none (Nat.le_of_not_lt h), Option.getD_none]

/-- Init lists the program's bytes from 0x200 on, and no others (R281). -/
theorem init_byte (program : List Byte) (cfg : Config) (a : Nat) :
    (State.init program cfg).byte a =
      if h : 0x200 ≤ a ∧ a < 0x200 + (program.take 0xE00).length then (program.take 0xE00)[a - 0x200]
      else blankByte cfg a :=
  byte_writeBytes _ _ _ _

/-- Every address of memory that the uncut program would reach is reached by the program Init places (R281;
decision D27). -/
theorem in_program_iff {a : Nat} (ha : a < 0x1000) (program : List Byte) :
    (0x200 ≤ a ∧ a < 0x200 + (program.take 0xE00).length) ↔ (0x200 ≤ a ∧ a - 0x200 < program.length) := by
  rw [List.length_take]
  omega

/-- Settles O47: an address lies in the font, in the program that starts above it, or in neither. -/
theorem initPlacesFontAndProgram : Obligations.InitPlacesFontAndProgram := by
  intro program cfg a ha
  refine ⟨?_, ?_⟩
  · rw [init_byte, blankByte_eq]
    by_cases hfont : a < 80
    · have hbelow : ¬(0x200 ≤ a ∧ a < 0x200 + (program.take 0xE00).length) := by omega
      rw [dif_neg hbelow, dif_pos hfont, dif_pos hfont]
    · rw [dif_neg hfont, dif_neg hfont]
      simp only [in_program_iff ha, List.getElem_take]
  · rw [init_eq]
    exact ⟨rfl, rfl, rfl, rfl, rfl⟩

end Sys2Proof.Machine
end
